-- ==== Sys2Proof/Word.lean ====
section
/-! DEFINITION. The word types of the CV-EC block: register words, samples and binary64 patterns. -/

namespace Sys2Proof

/-- A register word: every register access is one 32-bit word (R10 REG_WORD, R60). -/
abbrev Word := BitVec 32

/-- A byte of pixel memory, which is one unsigned 8-bit sample (R10 SAMPLE_BITS, R30, R61). -/
abbrev Byte := BitVec 8

/-- A 64-bit pattern that the rules read as an IEEE 754 binary64 number (R22, R112). -/
abbrev Double := BitVec 64

end Sys2Proof
end

