-- ==== Sys2Proof/Config.lean ====
section
/-! DEFINITION. What the spec leaves to an implementation, and the free values: constants with no body, so that a claim
holds whatever they are. Only constants stand here; the functions built on them are in Machine/. -/

namespace Sys2Proof

/-- MEM_SIZE less one, of the implementation that `State.reset` describes. MEM_SIZE is an OPEN parameter with
1 ≤ MEM_SIZE ≤ 2^32 (R10, U1); every number in that range is one more than a 32-bit number. Log entry 2. -/
opaque Config.memSizePred : BitVec 32

/-- The byte that pixel memory holds at an address, after the n-th reset (n counted from 0), until something is written
there: unspecified but stable (R32, R250, R251; U3, U13). Log entry 3. -/
opaque Config.powerOnByte : (reset : Nat) → (address : Nat) → Byte

/-- The unspecified byte that the n-th host read beyond pixel memory answers, a free draw at each such read (R14, R216; U4).
Log entry 4. -/
opaque Config.freeByte : (draw : Nat) → Byte

/-- The implementation's power routine, of which `Machine.pow` uses the results that R123 allows (U2). Log entry 5. -/
opaque Config.powRaw : (x g : Double) → Double

/-- Sign (bit 51) and payload (bits 50:0) of the NaN that an invalid binary64 operation yields: R115 and R116 say "NaN" and
give no pattern. No accepted command makes one (R119). Log entry 6. -/
opaque Config.nanBits : BitVec 52

/-- `fdiv` on operands for which R117 does not define it (a non-finite operand or a zero divisor). No command divides so.
Log entry 7. -/
opaque Config.fdivOutside : (a b : Double) → Double

/-- `of_int` on an integer of magnitude 2^53 or more, for which R114 does not define it. No state that meets the invariant
of Safety.lean converts one (R11). Log entry 7. -/
opaque Config.ofIntOutside : (n : Int) → Double

end Sys2Proof
end

