-- ==== Sys2Proof/Syntax.lean ====
section
/-! DEFINITION. The seven commands of the block, one constructor for each row of spec/opcode_table.json (R91). A command has
no register, immediate or mode field: every operand is implicit (R90, R92). -/

namespace Sys2Proof

/-- A command of the block, in the order of R91. -/
inductive Instr where
  /-- GRAY: the colour reducer in binary64 (R141). -/
  | gray
  /-- GRAYFX: the colour reducer in 8-bit fixed point (R143). -/
  | grayfx
  /-- HISTEQ: the histogram equalizer (R155). -/
  | histeq
  /-- GAMMA: the gamma corrector (R170). -/
  | gamma
  /-- CONV3: the general 3×3 kernel (R180). -/
  | conv3
  /-- MEAN3: the un-weighted 3×3 mean (R182). -/
  | mean3
  /-- OTSU: the Otsu thresholder (R195). -/
  | otsu
deriving DecidableEq, Repr

end Sys2Proof
end

