-- ==== Sys2Proof/Machine/State.lean ====
section
/-! DEFINITION. The state of the block (R20): the register file of R28 and pixel memory, beside the model's own fields: the
implementation's MEM_SIZE, the host's pending operations and the values it has read, and two counters for free values. -/

namespace Sys2Proof.Machine

/-- A 64-bit parameter register: two 32-bit halves of independent storage (R22). -/
structure Reg64 where
  lo : Word
  hi : Word
deriving DecidableEq, Repr

/-- The kernel registers: weight kernel[ky][kx] is register K(3·ky + kx) (R22). -/
structure Kernel where
  k0 : Reg64
  k1 : Reg64
  k2 : Reg64
  k3 : Reg64
  k4 : Reg64
  k5 : Reg64
  k6 : Reg64
  k7 : Reg64
  k8 : Reg64
deriving DecidableEq, Repr

/-- What the world outside the block can do to it: the four host operations (R210, R211, R214, R215, R216) and the platform's
reset input (R250). There is nothing else (R16, R217, R238). -/
inductive Input where
  /-- `RegRead(off)`, R210. -/
  | regRead (off : Nat)
  /-- `RegWrite(off, v)`, R211. A write at offset 0x00, CMD, issues the command word v (R212). -/
  | regWrite (off : Nat) (v : Word)
  /-- `HostMemRead(addr)`, R214 and R216. -/
  | memRead (addr : Nat)
  /-- `HostMemWrite(addr, b)`, R215 and R216. -/
  | memWrite (addr : Nat) (b : Byte)
  /-- The platform asserts reset, R250. -/
  | reset
deriving DecidableEq, Repr

/-- What a read by the host returned. -/
inductive Reply where
  /-- The 32-bit value of a `RegRead` (R210). -/
  | word (v : Word)
  /-- The byte of a `HostMemRead` (R214, R216). -/
  | byte (b : Byte)
deriving DecidableEq, Repr

/-- The causes for which a command is refused (R226). Code 0 is "none latched" and code 7 is never produced, so neither is
a constructor. -/
inductive Cause where
  | illegal
  | dim
  | srcRange
  | resource
  | overlap
  | param
deriving DecidableEq, Repr

/-- Pixel memory as the bytes written since the last reset, by address. An address that is not listed holds the byte it came
out of reset with, which the spec leaves open (R32, R250). -/
abbrev Memory := List Host.Cell

/-- The state of the block. -/
structure State where
  /-- STATUS bit 0, ERR: a refusal is latched (R25). -/
  err : Bool
  /-- STATUS bit 1, TV: THRESH is valid (R25). -/
  tv : Bool
  /-- ERRCODE[2:0], the latched cause (R26). -/
  errcode : BitVec 3
  /-- ERRCMD, the refused command word (R26). -/
  errcmd : Word
  /-- SRC, the address of the source buffer (R21). -/
  src : Word
  /-- DST, the address of the destination buffer (R21). -/
  dst : Word
  /-- WIDTH, pixels per row (R21). -/
  width : Word
  /-- HEIGHT, rows (R21). -/
  height : Word
  /-- THRESH[7:0], the cut value of the most recent successful OTSU (R23). -/
  thresh : Byte
  /-- GAMMA, as GAMMA_LO and GAMMA_HI (R22). -/
  gamma : Reg64
  /-- K0 to K8, each as Kj_LO and Kj_HI (R22). -/
  kernel : Kernel
  /-- Pixel memory (R30), the bytes written since the last reset. -/
  mem : Memory
  /-- The model's own: MEM_SIZE of the implementation this state belongs to (R10, U1). No step changes it. -/
  memSize : Nat
  /-- The model's own: how many resets after the first there have been. It selects the free contents of pixel memory (R250). -/
  resets : Nat
  /-- The model's own: how many free bytes host reads beyond pixel memory have drawn (R216). -/
  draws : Nat
  /-- The model's own: the operations the outside world will perform, first one first. The "program" lives in the host (R33). -/
  inputs : List Input
  /-- The model's own: what the host's reads returned, last one first. -/
  replies : List Reply
deriving DecidableEq, Repr

/-- The faults of the machine. -/
inductive Fault where
  /-- Raised by `produce` (Ops.lean) if a command that passed its acceptance checks had a source or destination range outside
  pixel memory, where the spec says there are no bytes (R30, R64, R65). R61 says that no command does; Safety.lean says so of
  the model. Safe: a machine that went on would have to access a byte that does not exist. -/
  | outsidePixelMemory
deriving DecidableEq, Repr

/-- The refusals of the model: a step that the block does not have. (A command that the block itself refuses, R225, is a next
state with the refusal latched, not one of these.) -/
inductive Refusal where
  /-- Raised by an arm of `exec` whose command has no meaning yet; no arm does. Safe: nothing is claimed of such a command. -/
  | notModelled (mnemonic : String)
  /-- Raised by the host port for a register access at an offset that is not a multiple of 4, which "is not an operation of
  the interface: the model has no such step" (R210, U6). Safe: the model stops where the spec says there is no operation. -/
  | misalignedRegisterAccess
deriving DecidableEq, Repr

/-- The register halves after reset (R32). -/
def Reg64.zero : Reg64 := { lo := 0, hi := 0 }

/-- All weights +0.0 (R32). -/
def Kernel.zero : Kernel :=
  { k0 := .zero, k1 := .zero, k2 := .zero, k3 := .zero, k4 := .zero, k5 := .zero, k6 := .zero, k7 := .zero, k8 := .zero }

/-- The state after reset of an implementation with `memSize` bytes of pixel memory: every register 0, nothing known of pixel
memory (R32, R251), and nothing asked by the host. -/
def State.resetWith (memSize : Nat) : State :=
  { err := false, tv := false, errcode := 0, errcmd := 0, src := 0, dst := 0, width := 0, height := 0, thresh := 0,
    gamma := .zero, kernel := .zero, mem := [], memSize := memSize, resets := 0, draws := 0, inputs := [], replies := [] }

/-- The state after reset (R32), of an implementation of any size the spec allows (R10). -/
def State.reset : State := State.resetWith (Config.memSizePred.toNat + 1)

end Sys2Proof.Machine
end

