-- ==== Sys2Proof/Machine/Flags.lean ====
section
/-! DEFINITION. STATUS and the error registers: the words the host reads, the cause codes, and the updates of the two flags.
No arithmetic result sets a flag (R25). -/

namespace Sys2Proof.Machine

/-- The code of a cause, as ERRCODE[2:0] holds it (R226). -/
def Cause.code : Cause → BitVec 3
  | .illegal => 1
  | .dim => 2
  | .srcRange => 3
  | .resource => 4
  | .overlap => 5
  | .param => 6

/-- STATUS as the host reads it: bit 0 ERR, bit 1 TV, the rest 0 (R25, R210). -/
def State.statusWord (s : State) : Word := BitVec.ofNat 32 (s.err.toNat + 2 * s.tv.toNat)

/-- ERRCODE as the host reads it: bits 2:0 the code, the rest 0 (R26, R210). -/
def State.errcodeWord (s : State) : Word := s.errcode.setWidth 32

/-- THRESH as the host reads it: bits 7:0 the cut value, the rest 0 (R23, R210). -/
def State.threshWord (s : State) : Word := s.thresh.setWidth 32

/-- Latch a cause and the refused word, with ERR (R26, R233). -/
def State.latchError (code : BitVec 3) (word : Word) (s : State) : State :=
  { s with err := true, errcode := code, errcmd := word }

/-- Clear ERR, ERRCODE and ERRCMD together; TV stays (R213). -/
def State.clearLatch (s : State) : State := { s with err := false, errcode := 0, errcmd := 0 }

/-- What a successful OTSU writes beside its destination: THRESH and TV (R195). -/
def State.recordThreshold (t : Byte) (s : State) : State := { s with thresh := t, tv := true }

end Sys2Proof.Machine
end

