-- ==== Sys2Proof/Machine/Memory.lean ====
section
/-! DEFINITION. Pixel memory (R30, R60, R61): the operations on its list of written bytes, its canonical form, and the reads
and writes of a state. A read has no side effect (R64, R71). -/

namespace Sys2Proof.Machine

/-- The byte written at an address since the last reset, if one was. -/
def Memory.lookup : Memory → Nat → Option Byte
  | [], _ => none
  | (a, b) :: rest, x => if x = a then some b else Memory.lookup rest x

/-- Write one byte, keeping the addresses strictly rising. -/
def Memory.write : Memory → Nat → Byte → Memory
  | [], x, v => [(x, v)]
  | (a, b) :: rest, x, v =>
    if x < a then (x, v) :: (a, b) :: rest
    else if x = a then (a, v) :: rest
    else (a, b) :: Memory.write rest x v

/-- `MemWrite(a, n, v)` for the list v of n bytes: byte i goes to address a + i (R65). -/
def Memory.writeAll : Memory → Nat → List Byte → Memory
  | m, _, [] => m
  | m, a, v :: vs => Memory.writeAll (m.write a v) (a + 1) vs

/-- Whether every listed address is above `a` and the addresses rise strictly. -/
def Memory.risesAbove : Nat → Memory → Bool
  | _, [] => true
  | a, (x, _) :: rest => decide (a < x) && Memory.risesAbove x rest

/-- The canonical form of pixel memory: addresses strictly rising. An unlisted address has no written byte, so no entry can
equal what an unlisted address holds. -/
def Memory.wf : Memory → Bool
  | [] => true
  | (x, _) :: rest => Memory.risesAbove x rest

/-- What an address that nothing has written since the last reset reads as: a free byte, the same at every read (R32). -/
def State.unwrittenByte (s : State) (a : Nat) : Byte := Config.powerOnByte s.resets a

/-- `MemRead(a, 1)`: the byte of pixel memory at an address (R64). -/
def State.readByte (s : State) (a : Nat) : Byte := (s.mem.lookup a).getD (s.unwrittenByte a)

/-- `MemRead(a, n)`: n bytes, lowest address first (R64). -/
def State.readBytes (s : State) (a n : Nat) : List Byte := (List.range n).map fun i => s.readByte (a + i)

/-- `MemWrite(a, n, v)`: nothing else changes (R65). -/
def State.writeBytes (s : State) (a : Nat) (v : List Byte) : State := { s with mem := s.mem.writeAll a v }

end Sys2Proof.Machine
end

