-- ==== Sys2Proof/WellFormed.lean ====
section
/-! DEFINITION. The checks on terms that stand for something the host can issue. -/

namespace Sys2Proof

/-- Every command is well formed: a command word has no field besides its operation code (R90, R92), so a constructor of
`Instr` carries nothing that could be out of range. -/
def Instr.wf : Instr → Bool
  | .gray | .grayfx | .histeq | .gamma | .conv3 | .mean3 | .otsu => true

/-- A register access is at a byte offset that is a multiple of 4; any other is no operation of the interface (R210, R211,
U6). -/
def registerOffsetWf (off : Nat) : Bool := off % 4 == 0

end Sys2Proof
end

