-- ==== Sys2Proof/Decode.lean ====
section
/-! DEFINITION. The command word: its two fields, the decoder (total on every 32-bit word, refusing by name) and the
encoder, both written from R90, R91 and R93. A command word reaches the block as one whole 32-bit value, so there is no
fetch byte order (R63). -/

namespace Sys2Proof

/-- The operation code, bits 7:0 (R90). -/
def opcField (c : Word) : BitVec 8 := c.extractLsb' 0 8

/-- The field ZERO, bits 31:8, which must be 0 (R90). -/
def zeroField (c : Word) : BitVec 24 := c.extractLsb' 8 24

/-- Why a word is none of the seven commands (R93). -/
inductive DecodeError where
  /-- ZERO, bits 31:8, is not 0. -/
  | zeroFieldSet
  /-- ZERO is 0 and OPC is 0x00 or in 0x08..0xFF. -/
  | reservedOpcode
deriving DecidableEq, Repr

/-- The command that an operation code names (R91). -/
def decodeOpc (opc : Nat) : Option Instr :=
  match opc with
  | 1 => some .gray
  | 2 => some .grayfx
  | 3 => some .histeq
  | 4 => some .gamma
  | 5 => some .conv3
  | 6 => some .mean3
  | 7 => some .otsu
  | _ => none

/-- The command that a word selects, or why it selects none (R91, R93). -/
def decode (c : Word) : Except DecodeError Instr :=
  if zeroField c = 0 then
    match decodeOpc (opcField c).toNat with
    | some i => .ok i
    | none => .error .reservedOpcode
  else .error .zeroFieldSet

/-- The word of a command (R91, column "Word (match)"). -/
def encode : Instr → Word
  | .gray => 0x00000001
  | .grayfx => 0x00000002
  | .histeq => 0x00000003
  | .gamma => 0x00000004
  | .conv3 => 0x00000005
  | .mean3 => 0x00000006
  | .otsu => 0x00000007

/-- The command word made of the low `nbits` bits of `w`, the bits above them 0. -/
def tableWord (nbits w : Nat) : Word := BitVec.ofNat 32 (w % 2 ^ nbits)

/-- The command the decoder reads from an instruction whose bits are `w`, numbered as spec/opcode_table.json numbers them. -/
def decodeTableWord (nbits w : Nat) : Option Instr :=
  match decode (tableWord nbits w) with
  | .ok i => some i
  | .error _ => none

end Sys2Proof
end

