-- ==== Sys2Proof/Machine/Binary64.lean ====
section
/-! DEFINITION. The binary64 arithmetic of R112 to R118. Every finite pattern is a whole multiple of 2^(-1074), so a value is
an exact rational and every operation is: the exact result, rounded once by `fl` (R113). -/

namespace Sys2Proof.Machine

/-- Bit 63, the sign (R112). -/
def signBit (p : Double) : Bool := p.getLsbD 63

/-- Bits 62:52, the biased exponent E (R112). -/
def expField (p : Double) : Nat := (p.extractLsb' 52 11).toNat

/-- Bits 51:0, the fraction F (R112). -/
def fracField (p : Double) : Nat := (p.extractLsb' 0 52).toNat

/-- A pattern is finite when E ≠ 2047 (R112). -/
def isFinite (p : Double) : Bool := expField p != 2047

/-- An infinity: E = 2047 and F = 0 (R112). -/
def isInfinite (p : Double) : Bool := expField p == 2047 && fracField p == 0

/-- A NaN: E = 2047 and F ≠ 0 (R112). -/
def isNaN (p : Double) : Bool := expField p == 2047 && fracField p != 0

/-- A zero of either sign: E = 0 and F = 0 (R112). -/
def isZero (p : Double) : Bool := expField p == 0 && fracField p == 0

/-- The magnitude of a finite pattern in units of 2^(-1074): F when E = 0, and (2^52 + F)·2^(E-1) otherwise (R112). -/
def magnitude (p : Double) : Nat :=
  if expField p = 0 then fracField p else (2 ^ 52 + fracField p) * 2 ^ (expField p - 1)

/-- The number that a finite pattern stands for (R112). -/
def value (p : Double) : Rat :=
  mkRat (if signBit p then -(magnitude p : Int) else (magnitude p : Int)) (2 ^ 1074)

/-- The pattern with a sign and the given bits 62:0. -/
def packSign (sign : Bool) (rest : Nat) : Double := BitVec.ofNat 64 ((if sign then 2 ^ 63 else 0) + rest)

/-- Bits 62:0 of an infinity: E = 2047, F = 0 (R112). -/
def infinityBits : Nat := 2047 * 2 ^ 52

/-- The integer nearest to n/d, and the even one when n/d lies halfway between two (R113). -/
def nearestEven (n d : Nat) : Nat :=
  let q := n / d
  let r := n % d
  if 2 * r < d then q else if d < 2 * r then q + 1 else q + q % 2

/-- Bits 62:0 of the positive number (n/d)·2^(-1074), rounded (R113). With `k` the exponent of the unit u = 2^(k-1074) and m the
integer nearest to the number over u, the pattern of m·u is k·2^52 + m: the leading bit of m, when there is one, carries
into the exponent field, and so does a round up to 2^53. A pattern that reaches the exponent field 2047 means a result of at
least 2^1024, and becomes the infinity. -/
def roundedBits (n d : Nat) : Nat :=
  let k := (n / d).log2 - 52
  min (k * 2 ^ 52 + nearestEven n (d * 2 ^ k)) infinityBits

/-- `fl(q)`: q rounded to nearest, ties to even (R113). A zero result has the sign of q, and +0.0 stands for q = 0, whose sign
the operations give. -/
def fl (q : Rat) : Double := packSign (decide (q < 0)) (roundedBits (q.num.natAbs * 2 ^ 1074) q.den)

/-- The NaN of an invalid operation: E = 2047 and a fraction that is not 0; the other bits are free (R115, R116). -/
def nanResult : Double :=
  packSign (Config.nanBits.getLsbD 51) (infinityBits + 2 ^ 51 + Config.nanBits.toNat % 2 ^ 51)

/-- A zero with a sign. -/
def signedZero (sign : Bool) : Double := packSign sign 0

/-- An infinity with a sign. -/
def signedInfinity (sign : Bool) : Double := packSign sign infinityBits

/-- `of_int(n)` (R114). -/
def ofInt (n : Int) : Double := if n.natAbs < 2 ^ 53 then fl n else Config.ofIntOutside n

/-- `fmul(a, b)` (R115). -/
def fmul (a b : Double) : Double :=
  let sign := signBit a != signBit b
  if isNaN a || isNaN b || (isZero a && isInfinite b) || (isInfinite a && isZero b) then nanResult
  else if isInfinite a || isInfinite b then signedInfinity sign
  else if isZero a || isZero b then signedZero sign
  else fl (value a * value b)

/-- `fadd(a, b)` (R116). -/
def fadd (a b : Double) : Double :=
  if isNaN a || isNaN b || (isInfinite a && isInfinite b && signBit a != signBit b) then nanResult
  else if isInfinite a then a
  else if isInfinite b then b
  else if value a + value b = 0 then signedZero (isZero a && isZero b && signBit a && signBit b)
  else fl (value a + value b)

/-- `fdiv(a, b)`, which R117 defines for a finite a and a finite b that is not a zero. -/
def fdiv (a b : Double) : Double :=
  if isFinite a && isFinite b && !isZero b then
    if isZero a then signedZero (signBit a != signBit b) else fl (value a / value b)
  else Config.fdivOutside a b

/-- `clamp_round(f)`, by the cases of R118; the sum f + 1/2 is exact. -/
def clampRound (f : Double) : Byte :=
  if isNaN f then 0
  else if isInfinite f then (if signBit f then 0 else 255)
  else if value f < 1 / 2 then 0
  else if 509 / 2 ≤ value f then 255
  else BitVec.ofInt 8 (value f + 1 / 2).floor

/-- 0.299 in binary64 (R120). -/
def weightR : Double := 0x3FD322D0E5604189

/-- 0.587 in binary64 (R120). -/
def weightG : Double := 0x3FE2C8B439581062

/-- 0.114 in binary64 (R120). -/
def weightB : Double := 0x3FBD2F1A9FBE76C9

/-- 255.0 (R120). -/
def double255 : Double := 0x406FE00000000000

/-- +0.0 (R120). -/
def positiveZero : Double := 0x0000000000000000

/-- 1.0 (spec file 95, conventions; R171). -/
def doubleOne : Double := 0x3FF0000000000000

end Sys2Proof.Machine
end

