-- ==== Sys2Proof/Machine/Pow.lean ====
section
/-! DEFINITION. POW, the power function that the spec leaves open but for named properties (R10, R123, U2). `pow` has all of them
but the optional POW-MONO by construction; the properties also stand as predicates of a power function, so that a claim can name
the ones it uses. -/

namespace Sys2Proof.Machine

/-- A legal exponent g: finite and greater than zero, judged on the pattern (R170, R232). -/
def legalGamma (g : Double) : Bool := !signBit g && expField g != 2047 && !isZero g

/-- The operands x for which the gamma corrector calls POW: i/255 in binary64, i in 0..255 (R123, R170). -/
def powOperand (i : Nat) : Double := fdiv (ofInt i) double255

/-- A pattern that is not a NaN and whose value lies in [0, 1]. -/
def inUnitInterval (p : Double) : Bool := isFinite p && decide (0 ≤ value p) && decide (value p ≤ 1)

/-- The operand pairs of R123: x = i/255 for some i in 0..255, and a legal g. -/
def isPowCall (x g : Double) : Bool := legalGamma g && (List.range 256).any fun i => x == powOperand i

/-- r ≤ x^g, for rational 0 ≤ x and 0 < g and the real power: with g = m/n, the number x^g is the n-th root of x^m. -/
def leRealPower (r x g : Rat) : Bool := decide (r ≤ 0 ∨ r ^ g.den ≤ x ^ g.num.toNat)

/-- x^g ≤ r, for rational 0 ≤ x and 0 < g and the real power. -/
def realPowerLe (x g r : Rat) : Bool := decide (0 ≤ r ∧ x ^ g.num.toNat ≤ r ^ g.den)

/-- The pattern's value is within 2^(-40) of the real power of the values of x and g, decided in exact arithmetic (POW-ACC). -/
def isAccuratePower (x g p : Double) : Bool :=
  leRealPower (value p - 1 / 2 ^ 40) (value x) (value g) && realPowerLe (value x) (value g) (value p + 1 / 2 ^ 40)

/-- Bisection: from a number that passes `test`, where the number 2^bits above it does not, a number that passes and whose
successor does not. -/
def bisect (test : Nat → Bool) : (bits : Nat) → (passes : Nat) → Nat
  | 0, n => n
  | b + 1, n => bisect test b (if test (n + 2 ^ b) then n + 2 ^ b else n)

/-- The real power truncated to binary64: a pattern whose value is at most x^g and whose successor's value is above it. The
patterns below 2^62 are those of the numbers in [0, 2). -/
def truncatedPower (x g : Double) : Double :=
  BitVec.ofNat 64 (bisect (fun n => leRealPower (value (BitVec.ofNat 64 n)) (value x) (value g)) 62 0)

/-- A power function with the five properties that R123 lets every claim assume, made from any function `raw`: on the operands
of R123 it has the values that POW-ZERO, POW-ONE and POW-ID fix, and elsewhere the result of `raw` where that is in the range of
POW-RANGE and as accurate as POW-ACC asks. A `raw` with the five properties is returned unchanged, so every power function that
R123 allows is `powFrom` of one; the truncated power only stands in for a `raw` that R123 does not allow. Log entry 5. -/
def powFrom (raw : Double → Double → Double) (x g : Double) : Double :=
  if !isPowCall x g then raw x g
  else if x = positiveZero then positiveZero
  else if x = doubleOne then doubleOne
  else if g = doubleOne then x
  else if inUnitInterval (raw x g) && isAccuratePower x g (raw x g) then raw x g
  else truncatedPower x g

/-- POW of the block (R123). That it is a function of its two operand patterns is POW-FUN. -/
def pow (x g : Double) : Double := powFrom Config.powRaw x g

/-- POW-RANGE: for the operands of R123 the result is not a NaN and lies in [0, 1]. -/
def PowRange (f : Double → Double → Double) : Prop :=
  ∀ i g, i ≤ 255 → legalGamma g = true → inUnitInterval (f (powOperand i) g) = true

/-- POW-ZERO: POW(+0.0, g) = +0.0 for every legal g. -/
def PowZero (f : Double → Double → Double) : Prop := ∀ g, legalGamma g = true → f positiveZero g = positiveZero

/-- POW-ONE: POW(1.0, g) = 1.0 for every legal g. -/
def PowOne (f : Double → Double → Double) : Prop := ∀ g, legalGamma g = true → f doubleOne g = doubleOne

/-- POW-ID: POW(x, 1.0) = x for every operand x of R123. -/
def PowId (f : Double → Double → Double) : Prop := ∀ i, i ≤ 255 → f (powOperand i) doubleOne = powOperand i

/-- POW-ACC at one exponent: the result is within 2^(-40) of the real power of the real values, for the operands of R123. -/
def PowAccAt (f : Double → Double → Double) (g : Double) : Prop :=
  ∀ i, i ≤ 255 →
    |((value (f (powOperand i) g) : Rat) : Real) - ((value (powOperand i) : Rat) : Real) ^ ((value g : Rat) : Real)|
      ≤ (1 : Real) / 2 ^ 40

/-- POW-ACC: `PowAccAt` at every legal exponent. -/
def PowAcc (f : Double → Double → Double) : Prop := ∀ g, legalGamma g = true → PowAccAt f g

/-- POW-MONO, assumed only by a claim that names it: for the operands of R123, x ≤ y implies POW(x, g) ≤ POW(y, g). -/
def PowMono (f : Double → Double → Double) : Prop :=
  ∀ i j g, i ≤ j → j ≤ 255 → legalGamma g = true → value (f (powOperand i) g) ≤ value (f (powOperand j) g)

end Sys2Proof.Machine
end

