-- ==== Sys2Proof/Machine/Operands.lean ====
section
/-! DEFINITION. The implicit operands of the commands (R92), the sizes and ranges of their buffers (R68), and the acceptance
checks (R98, steps 1 and 3 to 7) in their fixed order (R234). All arithmetic is on unbounded integers (R12, R110). -/

namespace Sys2Proof.Machine

/-- The 64-bit value `x[NAME_HI] ‖ x[NAME_LO]` (R13, R92). -/
def Reg64.double (r : Reg64) : Double := r.hi ++ r.lo

/-- The nine weights, K0 first (R22). -/
def Kernel.regs (k : Kernel) : List Reg64 := [k.k0, k.k1, k.k2, k.k3, k.k4, k.k5, k.k6, k.k7, k.k8]

/-- The nine weights as binary64 patterns, in the order in which CONV3 takes them (R180). -/
def Kernel.weights (k : Kernel) : List Double := k.regs.map Reg64.double

/-- N, the pixel count WIDTH·HEIGHT (R68). -/
def State.pixelCount (s : State) : Nat := s.width.toNat * s.height.toNat

/-- Channels of a command's source buffer (R21, R68). -/
def sourceChannels : Instr → Nat
  | .gray | .grayfx => 3
  | .histeq | .gamma | .conv3 | .mean3 | .otsu => 1

/-- SB, the bytes of a command's source range (R68). -/
def State.sourceSize (i : Instr) (s : State) : Nat := sourceChannels i * s.pixelCount

/-- The two classes of R72: an allocating command never aliases its source, a point command may work in place. -/
inductive CommandClass where
  | allocating
  | point
deriving DecidableEq, Repr

/-- The class of a command (R72, R91). -/
def commandClass : Instr → CommandClass
  | .gray | .grayfx | .conv3 | .mean3 => .allocating
  | .histeq | .gamma | .otsu => .point

/-- The source and destination ranges share a byte (R72, R231). -/
def State.rangesOverlap (i : Instr) (s : State) : Bool :=
  decide (s.src.toNat < s.dst.toNat + s.pixelCount) && decide (s.dst.toNat < s.src.toNat + s.sourceSize i)

/-- The ranges alias in a way the command's class forbids (R231). -/
def State.aliasesWrongly (i : Instr) (s : State) : Bool :=
  match commandClass i with
  | .allocating => s.rangesOverlap i
  | .point => s.rangesOverlap i && s.dst != s.src

/-- A weight CONV3 accepts: Kj[62:52] ≤ 2022, the sign not examined (R180, R232). -/
def legalWeight (w : Double) : Bool := decide (expField w ≤ 2022)

/-- The parameter check fails (R232). The five other commands have no parameter check. -/
def State.badParameter (i : Instr) (s : State) : Bool :=
  match i with
  | .gamma => !legalGamma s.gamma.double
  | .conv3 => !s.kernel.weights.all legalWeight
  | .gray | .grayfx | .histeq | .mean3 | .otsu => false

/-- What becomes of a command word that selects a command (R212). -/
inductive Verdict where
  | ignored
  | refused (c : Cause)
  | accepted
deriving DecidableEq, Repr

/-- Steps 1 and 3 to 7 of R98 for a legal word, the first that applies ending the processing. (Step 2 concerns words that
select no command: `issue`.) -/
def acceptance (i : Instr) (s : State) : Verdict :=
  if s.err then .ignored
  else if s.width = 0 ∨ s.height = 0 then .refused .dim
  else if s.memSize < s.src.toNat + s.sourceSize i then .refused .srcRange
  else if s.memSize < s.dst.toNat + s.pixelCount then .refused .resource
  else if s.aliasesWrongly i then .refused .overlap
  else if s.badParameter i then .refused .param
  else .accepted

/-- The sample of a 1-channel source buffer at linear index p (R66), or the p-th byte of a 3-channel one (R67). -/
def State.sourceByte (s : State) (p : Nat) : Byte := s.readByte (s.src.toNat + p)

/-- The samples of a 1-channel source buffer, in the order of their linear index (R66). -/
def State.sourceSamples (s : State) : List Byte := s.readBytes s.src.toNat s.pixelCount

/-- `sample(b, W, H, x, y)`: the clamp-to-edge read, each coordinate clamped by itself (R69). -/
def State.sample (s : State) (b W H : Nat) (x y : Int) : Byte :=
  let xc := min (max x 0) ((W : Int) - 1)
  let yc := min (max y 0) ((H : Int) - 1)
  s.readByte (b + yc.toNat * W + xc.toNat)

/-- The nine clamp-to-edge reads around pixel (x, y), in the order K0 to K8: rows top to bottom, left to right (R180). -/
def State.neighbourhood (s : State) (b W H : Nat) (x y : Int) : List Byte :=
  [0, 1, 2].flatMap fun (ky : Int) => [0, 1, 2].map fun (kx : Int) => s.sample b W H (x + kx - 1) (y + ky - 1)

/-- The neighbourhood of the source pixel with linear index p, which is at column p mod W and row p div W (R66). -/
def State.sourceNeighbourhood (s : State) (p : Nat) : List Byte :=
  let W := s.width.toNat
  s.neighbourhood s.src.toNat W s.height.toNat (p % W : Nat) (p / W : Nat)

end Sys2Proof.Machine
end

