-- ==== Sys2Proof/Machine/Ops.lean ====
section
/-! DEFINITION. The shared operations of the commands: the refusal, which is the block's one exception mechanism (R225), the
return from it (R236), and the frame of every command (R98): acceptance first, then the destination written. -/

namespace Sys2Proof.Machine

/-- `raise Refuse(code)` for the command word c: ERR, ERRCODE and ERRCMD are written and nothing else (R233). The block has no
saved program counter, vector or mode (R225). -/
def State.refuse (cause : Cause) (c : Word) (s : State) : State := s.latchError cause.code c

/-- The host's way out of the latched state: a write to STATUS clears the error state when bit 0 of the written value is 1,
and otherwise changes nothing (R213, R236). -/
def State.writeStatus (v : Word) (s : State) : State := if v.getLsbD 0 then s.clearLatch else s

/-- The frame of every command (R98, R212): ignored, refused with its own word latched, or executed. -/
def command (i : Instr) (execute : State → Host.Outcome State Fault Refusal) (s : State) :
    Host.Outcome State Fault Refusal :=
  match acceptance i s with
  | .ignored => .next s
  | .refused cause => .next (s.refuse cause (encode i))
  | .accepted => execute s

/-- Write the destination buffer: pixel p gets `pixel p`, for p in 0..N-1 (R68). The pixels are computed before any is written,
which no host can tell from any other order (R17, R72). A range outside pixel memory would be a fault; after the acceptance
checks there is none (R61). -/
def produce (i : Instr) (pixel : Nat → Byte) (s : State) : Host.Outcome State Fault Refusal :=
  if s.src.toNat + s.sourceSize i ≤ s.memSize ∧ s.dst.toNat + s.pixelCount ≤ s.memSize then
    .next (s.writeBytes s.dst.toNat ((List.range s.pixelCount).map pixel))
  else .fault .outsidePixelMemory

/-- A word that selects no command: ignored while ERR = 1, and otherwise refused with cause ILLEGAL (R98 steps 1 and 2, R93,
R227). -/
def illegalCommand (c : Word) (s : State) : State := if s.err then s else s.refuse .illegal c

end Sys2Proof.Machine
end

