-- ==== Sys2Proof/Machine/ColorReducer.lean ====
section
/-! DEFINITION. The colour reducer: GRAY (R141) and GRAYFX (R143). -/

namespace Sys2Proof.Machine

/-- The weighted sum (0.299·R + 0.587·G) + 0.114·B, every product and sum rounded (R141). -/
def lumaDouble (r g b : Byte) : Double :=
  fadd (fadd (fmul weightR (ofInt r.toNat)) (fmul weightG (ofInt g.toNat))) (fmul weightB (ofInt b.toNat))

/-- One pixel of GRAY (R141). -/
def grayPixel (r g b : Byte) : Byte := clampRound (lumaDouble r g b)

/-- The 16-bit sum 77·R + 150·G + 29·B (R111, R143). -/
def lumaFixed (r g b : Byte) : BitVec 16 := 77 * r.setWidth 16 + 150 * g.setWidth 16 + 29 * b.setWidth 16

/-- One pixel of GRAYFX: bits 15:8 of the sum (R143). The lanes of eight are not visible (R147). -/
def grayfxPixel (r g b : Byte) : Byte := (lumaFixed r g b).extractLsb' 8 8

/-- A colour strategy applied to the p-th pixel of the 3-channel source: bytes 3p, 3p+1, 3p+2 are R, G, B (R67). -/
def State.reducedPixel (f : Byte → Byte → Byte → Byte) (s : State) (p : Nat) : Byte :=
  f (s.sourceByte (3 * p)) (s.sourceByte (3 * p + 1)) (s.sourceByte (3 * p + 2))

/-- GRAY (R141). -/
def execGray (s : State) : Host.Outcome State Fault Refusal :=
  command .gray (fun s => produce .gray (s.reducedPixel grayPixel) s) s

/-- GRAYFX (R143). -/
def execGrayfx (s : State) : Host.Outcome State Fault Refusal :=
  command .grayfx (fun s => produce .grayfx (s.reducedPixel grayfxPixel) s) s

end Sys2Proof.Machine
end

