-- ==== Sys2Proof/Machine/GammaCorrector.lean ====
section
/-! DEFINITION. The gamma corrector, command GAMMA (R170). -/

namespace Sys2Proof.Machine

/-- T[i] = clamp_round(255·POW(i/255, g)), for a given power function (R170). -/
def gammaEntry (power : Double → Double → Double) (g : Double) (i : Nat) : Byte :=
  clampRound (fmul double255 (power (powOperand i) g))

/-- The command GAMMA (R170). -/
def execGamma (s : State) : Host.Outcome State Fault Refusal :=
  command .gamma (fun s => produce .gamma (fun p => gammaEntry pow s.gamma.double (s.sourceByte p).toNat) s) s

end Sys2Proof.Machine
end

