-- ==== Sys2Proof/Machine/HistogramEqualizer.lean ====
section
/-! DEFINITION. The histogram, which HISTEQ and OTSU build of the whole source before they write anything (R62), and the
histogram equalizer HISTEQ (R155). Histogram and table are working data that no command leaves behind (R31). -/

namespace Sys2Proof.Machine

/-- hist[v] for v in 0..255: how many samples have intensity v (R155, R195). -/
def histogram (samples : List Byte) : List Nat := (List.range 256).map fun v => samples.countP fun b => b.toNat == v

/-- cum[i] = hist[0] + … + hist[i] (R155). -/
def cumulative (hist : List Nat) (i : Nat) : Nat := (hist.take (i + 1)).sum

/-- gmin, the smallest intensity with a nonzero count (R155). -/
def darkest (hist : List Nat) : Nat := hist.findIdx (0 < ·)

/-- hmin = cum[gmin] (R155). -/
def darkestCount (hist : List Nat) : Nat := cumulative hist (darkest hist)

/-- T[i] for an image that is not constant: T[0] = 0, and for i in 1..255 the quotient (255·(cum[i] − hmin)) / (N − hmin), the
difference signed and the product taken first, clamped (R155). -/
def equalizeEntry (hist : List Nat) (n i : Nat) : Byte :=
  if i = 0 then 0
  else
    let num := ofInt ((cumulative hist i : Int) - darkestCount hist)
    let den := ofInt ((n : Int) - darkestCount hist)
    clampRound (fdiv (fmul double255 num) den)

/-- What HISTEQ makes of a sample of an image of n pixels: itself when the image is constant (R158), its table entry
otherwise. -/
def equalizedSample (hist : List Nat) (n : Nat) (v : Byte) : Byte :=
  if n = darkestCount hist then v else equalizeEntry hist n v.toNat

/-- HISTEQ (R155). -/
def execHisteq (s : State) : Host.Outcome State Fault Refusal :=
  command .histeq (fun s =>
    let hist := histogram s.sourceSamples
    produce .histeq (fun p => equalizedSample hist s.pixelCount (s.sourceByte p)) s) s

end Sys2Proof.Machine
end

