-- ==== Sys2Proof/Machine/NeighborhoodFilter.lean ====
section
/-! DEFINITION. The neighbourhood filter: CONV3 (R180) and MEAN3 (R182). Both take their nine reads from the one
clamp-to-edge function (R69), border pixels included (R183). -/

namespace Sys2Proof.Machine

/-- One step of the accumulation: product rounded, then sum rounded (R180). -/
def accumulate (acc : Double) (term : Double × Byte) : Double := fadd acc (fmul term.1 (ofInt term.2.toNat))

/-- The accumulator after all terms, from +0.0, in the order K0 to K8 (R180). -/
def convolve (weights : List Double) (samples : List Byte) : Double :=
  (weights.zip samples).foldl accumulate positiveZero

/-- The truncated mean of nine samples (R182). -/
def mean (samples : List Byte) : Byte := BitVec.ofNat 8 ((samples.map BitVec.toNat).sum / 9)

/-- CONV3 (R180). -/
def execConv3 (s : State) : Host.Outcome State Fault Refusal :=
  command .conv3 (fun s =>
    produce .conv3 (fun p => clampRound (convolve s.kernel.weights (s.sourceNeighbourhood p))) s) s

/-- MEAN3 (R182). -/
def execMean3 (s : State) : Host.Outcome State Fault Refusal :=
  command .mean3 (fun s => produce .mean3 (fun p => mean (s.sourceNeighbourhood p)) s) s

end Sys2Proof.Machine
end

