-- ==== Sys2Proof/Machine/Thresholder.lean ====
section
/-! DEFINITION. The Otsu thresholder, command OTSU (R195). Costs are exact rationals, compared exactly (R122). -/

namespace Sys2Proof.Machine

/-- A class of the split: its bins as pairs of a count h[i] and its intensity i (R195). -/
abbrev Bins := List (Nat × Nat)

/-- n, the pixels of a class (R195). -/
def Bins.count (c : Bins) : Nat := (c.map fun b => b.1).sum

/-- S = Σ i·h[i] over a class (R195). -/
def Bins.firstMoment (c : Bins) : Nat := (c.map fun b => b.2 * b.1).sum

/-- Q = Σ i²·h[i] over a class (R195). -/
def Bins.secondMoment (c : Bins) : Nat := (c.map fun b => b.2 * b.2 * b.1).sum

/-- mass·variance of a class in an image of N pixels: 0 for an empty class, (Q − S·S/n)/N otherwise (R195). -/
def Bins.cost (N : Nat) (c : Bins) : Rat :=
  if c.count = 0 then 0
  else ((c.secondMoment : Rat) - (c.firstMoment * c.firstMoment : Nat) / (c.count : Rat)) / (N : Rat)

/-- The bins that hold a pixel. An empty bin adds nothing to a class's n, S and Q, so leaving it out changes no sum. -/
def occupiedBins (hist : List Nat) : Bins := hist.zipIdx.filter fun b => decide (0 < b.1)

/-- The background class [0, t] (R195). -/
def background (hist : List Nat) (t : Nat) : Bins := (occupiedBins hist).filter fun b => decide (b.2 ≤ t)

/-- The foreground class [t+1, 255] (R195). -/
def foreground (hist : List Nat) (t : Nat) : Bins := (occupiedBins hist).filter fun b => decide (t < b.2)

/-- cost[t] (R195). -/
def splitCost (hist : List Nat) (N t : Nat) : Rat := (background hist t).cost N + (foreground hist t).cost N

/-- Scan candidates in rising order, keeping the first of those with the least cost (R195: the smallest minimiser). -/
def firstMinimiser (cost : Nat → Rat) : (best : Nat) → (candidates : List Nat) → Nat
  | best, [] => best
  | best, t :: ts => if cost t < cost best then firstMinimiser cost t ts else firstMinimiser cost best ts

/-- t*, the smallest t in 0..254 of least cost (R195). -/
def cutValue (hist : List Nat) (N : Nat) : Nat := firstMinimiser (splitCost hist N) 0 (List.range 255)

/-- A sample binarized: 0 if it is at most t*, else 255 (R195). -/
def binarized (t : Nat) (v : Byte) : Byte := if v.toNat ≤ t then 0 else 255

/-- OTSU (R195). -/
def execOtsu (s : State) : Host.Outcome State Fault Refusal :=
  command .otsu (fun s =>
    let t := cutValue (histogram s.sourceSamples) s.pixelCount
    produce .otsu (fun p => binarized t (s.sourceByte p)) (s.recordThreshold (BitVec.ofNat 8 t))) s

end Sys2Proof.Machine
end

