-- ==== Sys2Proof/Machine/Dispatch.lean ====
section
/-! DEFINITION. The meaning of a command whose word the host has written to CMD: steps 1 and 3 to 8 of R98. -/

namespace Sys2Proof.Machine

def exec (i : Instr) (s : State) : Host.Outcome State Fault Refusal :=
  match i with
  | .gray => Sys2Proof.Machine.execGray s
  | .grayfx => Sys2Proof.Machine.execGrayfx s
  | .histeq => Sys2Proof.Machine.execHisteq s
  | .gamma => Sys2Proof.Machine.execGamma s
  | .conv3 => Sys2Proof.Machine.execConv3 s
  | .mean3 => Sys2Proof.Machine.execMean3 s
  | .otsu => Sys2Proof.Machine.execOtsu s

end Sys2Proof.Machine
end

