-- ==== Sys2Proof/Machine/Registers.lean ====
section
/-! DEFINITION. Register space (R28, R60): which register stands at an offset, what it reads as (R210), and what a write to it
stores (R211). -/

namespace Sys2Proof.Machine

/-- The registers of R28. -/
inductive Register where
  | cmd
  | status
  | errcode
  | errcmd
  | src
  | dst
  | width
  | height
  | thresh
  | gammaLo
  | gammaHi
  | kLo (j : Fin 9)
  | kHi (j : Fin 9)
  /-- An offset with no register: it reads 0 and ignores writes (R29). -/
  | reserved
deriving DecidableEq, Repr

/-- The register at a byte offset that is a multiple of 4 (R28). -/
def registerAt (off : Nat) : Register :=
  if off = 0x00 then .cmd
  else if off = 0x04 then .status
  else if off = 0x08 then .errcode
  else if off = 0x0C then .errcmd
  else if off = 0x10 then .src
  else if off = 0x14 then .dst
  else if off = 0x18 then .width
  else if off = 0x1C then .height
  else if off = 0x20 then .thresh
  else if off = 0x28 then .gammaLo
  else if off = 0x2C then .gammaHi
  else if 0x30 ≤ off ∧ off < 0x78 then
    let j := Fin.ofNat 9 ((off - 0x30) / 8)
    if off % 8 = 0 then .kLo j else .kHi j
  else .reserved

/-- Weight register j (R22). -/
def Kernel.get (k : Kernel) : Fin 9 → Reg64
  | 0 => k.k0
  | 1 => k.k1
  | 2 => k.k2
  | 3 => k.k3
  | 4 => k.k4
  | 5 => k.k5
  | 6 => k.k6
  | 7 => k.k7
  | 8 => k.k8

/-- Replace weight register j (R22). -/
def Kernel.set (k : Kernel) (j : Fin 9) (r : Reg64) : Kernel :=
  match j with
  | 0 => { k with k0 := r }
  | 1 => { k with k1 := r }
  | 2 => { k with k2 := r }
  | 3 => { k with k3 := r }
  | 4 => { k with k4 := r }
  | 5 => { k with k5 := r }
  | 6 => { k with k6 := r }
  | 7 => { k with k7 := r }
  | 8 => { k with k8 := r }

/-- Write the low half; the high half stays (R22). -/
def Reg64.withLo (r : Reg64) (v : Word) : Reg64 := { r with lo := v }

/-- Write the high half; the low half stays (R22). -/
def Reg64.withHi (r : Reg64) (v : Word) : Reg64 := { r with hi := v }

/-- What a register reads as (R210). -/
def State.readRegister (s : State) : Register → Word
  | .cmd => 0
  | .status => s.statusWord
  | .errcode => s.errcodeWord
  | .errcmd => s.errcmd
  | .src => s.src
  | .dst => s.dst
  | .width => s.width
  | .height => s.height
  | .thresh => s.threshWord
  | .gammaLo => s.gamma.lo
  | .gammaHi => s.gamma.hi
  | .kLo j => (s.kernel.get j).lo
  | .kHi j => (s.kernel.get j).hi
  | .reserved => 0

/-- What a write to a register stores (R211). CMD has no storage (R27): a write to it issues a command, which `hostStep` sees
to. -/
def State.writeRegister (r : Register) (v : Word) (s : State) : State :=
  match r with
  | .cmd => s
  | .status => s.writeStatus v
  | .errcode => s
  | .errcmd => s
  | .src => { s with src := v }
  | .dst => { s with dst := v }
  | .width => { s with width := v }
  | .height => { s with height := v }
  | .thresh => s
  | .gammaLo => { s with gamma := s.gamma.withLo v }
  | .gammaHi => { s with gamma := s.gamma.withHi v }
  | .kLo j => { s with kernel := s.kernel.set j ((s.kernel.get j).withLo v) }
  | .kHi j => { s with kernel := s.kernel.set j ((s.kernel.get j).withHi v) }
  | .reserved => s

end Sys2Proof.Machine
end

