-- ==== Sys2Proof/Machine/HostPort.lean ====
section
/-! DEFINITION. The host port: the four operations of the host (R210, R211, R214 to R216), the issue of a command (R212) and
the platform's reset (R250). Every operation is atomic (R17, R71). -/

namespace Sys2Proof.Machine

/-- Hand a value back to the host; nothing of the block changes (R210, R214). -/
def State.reply (r : Reply) (s : State) : State := { s with replies := r :: s.replies }

/-- `HostMemRead(addr)`: the byte there (R214), or beyond pixel memory a free byte, a new one at every such read (R216). -/
def State.hostMemRead (addr : Nat) (s : State) : State :=
  if addr < s.memSize then s.reply (.byte (s.readByte addr))
  else { s.reply (.byte (Config.freeByte s.draws)) with draws := s.draws + 1 }

/-- `HostMemWrite(addr, b)`: one byte (R215), or beyond pixel memory nothing (R216). -/
def State.hostMemWrite (addr : Nat) (b : Byte) (s : State) : State :=
  if addr < s.memSize then s.writeBytes addr [b] else s

/-- Reset: every register 0 and pixel memory unspecified anew, also when a command was in progress (R32, R250, R251). What
is outside the block stays: the implementation, what the host does next and what it has read. -/
def State.platformReset (s : State) : State :=
  { State.resetWith s.memSize with resets := s.resets + 1, draws := s.draws, inputs := s.inputs, replies := s.replies }

/-- A write of the word c to CMD (R98, R212): the command it selects, or an illegal word. -/
def issue (c : Word) (s : State) : Host.Outcome State Fault Refusal :=
  match decode c with
  | .ok i => exec i s
  | .error _ => .next (illegalCommand c s)

/-- `RegWrite(off, v)` (R211). -/
def State.hostRegWrite (off : Nat) (v : Word) (s : State) : Host.Outcome State Fault Refusal :=
  match registerAt off with
  | .cmd => issue v s
  | r => .next (s.writeRegister r v)

/-- One operation of the outside world. A register access at an offset that is no multiple of 4 is not one (R210, U6). -/
def hostStep (op : Input) (s : State) : Host.Outcome State Fault Refusal :=
  match op with
  | .regRead off =>
    if registerOffsetWf off then .next (s.reply (.word (s.readRegister (registerAt off))))
    else .refused .misalignedRegisterAccess
  | .regWrite off v => if registerOffsetWf off then s.hostRegWrite off v else .refused .misalignedRegisterAccess
  | .memRead addr => .next (s.hostMemRead addr)
  | .memWrite addr b => .next (s.hostMemWrite addr b)
  | .reset => .next s.platformReset

/-- Take the next operation off the front of what the outside world will do. -/
def State.withInputs (ops : List Input) (s : State) : State := { s with inputs := ops }

/-- One step: the next operation of the outside world, or, when there is none, nothing: between host operations the block is
idle (R217). -/
def nextOperation (s : State) : Host.Outcome State Fault Refusal :=
  match s.inputs with
  | [] => .next s
  | op :: rest => hostStep op (s.withInputs rest)

end Sys2Proof.Machine
end

