-- ==== Sys2Proof/Machine/Step.lean ====
section
/-! DEFINITION. The step of the machine, and where an instruction is put for the step to run it. The block fetches nothing
(R24, R76): a command is the word of a host write to CMD. -/

namespace Sys2Proof.Machine

/-- One step of the machine: one operation of the outside world (R16, R17, R217). -/
def step (s : State) : Host.Outcome State Fault Refusal := nextOperation s

/-- The state in which the next operation of the host is the write of the given command word to CMD, offset 0x00 (R90). -/
def State.withFetchWord (s : State) (nbits w : Nat) : State :=
  s.withInputs (.regWrite 0x00 (tableWord nbits w) :: s.inputs)

end Sys2Proof.Machine
end

