-- ==== Sys2Proof/Machine/HostScript.lean ====
section
/-! DEFINITION. Host scripts, the spec's assembler notation (R95, R96): the lines and pseudo-lines, and the host operations that
each stands for. A script is loaded by putting its operations into `State.inputs`. -/

namespace Sys2Proof.Machine

/-- The byte offset of a register (R28). `reserved` names no one register; its offset here is the reserved word 0x24 (R29). -/
def Register.offset : Register → Nat
  | .cmd => 0x00
  | .status => 0x04
  | .errcode => 0x08
  | .errcmd => 0x0C
  | .src => 0x10
  | .dst => 0x14
  | .width => 0x18
  | .height => 0x1C
  | .thresh => 0x20
  | .gammaLo => 0x28
  | .gammaHi => 0x2C
  | .kLo j => 0x30 + 8 * j.val
  | .kHi j => 0x34 + 8 * j.val
  | .reserved => 0x24

/-- A line of a host script (R95) or a pseudo-line (R96). -/
inductive ScriptLine where
  /-- `wr REG, value` -/
  | wr (r : Register) (v : Word)
  /-- `rd REG` -/
  | rd (r : Register)
  /-- `mw addr, b0 b1 … bk` -/
  | mw (addr : Nat) (bytes : List Byte)
  /-- `mr addr, n` -/
  | mr (addr n : Nat)
  /-- A mnemonic alone on a line. -/
  | command (i : Instr)
  /-- `buf s, d, w, h` -/
  | buf (s d w h : Word)
  /-- `setg pattern64` -/
  | setg (p : Double)
  /-- `setk j, pattern64` -/
  | setk (j : Fin 9) (p : Double)
  /-- `kern p0 p1 p2 p3 p4 p5 p6 p7 p8` -/
  | kern (p0 p1 p2 p3 p4 p5 p6 p7 p8 : Double)
  /-- `clrerr` -/
  | clrerr
deriving DecidableEq, Repr

/-- `wr REG, value` as a host operation: the pair (offset, value) (R95). -/
def writeOp (r : Register) (v : Word) : Input := .regWrite r.offset v

/-- The two writes of `setk`, the low half first (R96). -/
def setWeightOps (j : Fin 9) (p : Double) : List Input :=
  [writeOp (.kLo j) (p.extractLsb' 0 32), writeOp (.kHi j) (p.extractLsb' 32 32)]

/-- The host operations of a line, in order (R95, R96). -/
def ScriptLine.ops : ScriptLine → List Input
  | .wr r v => [writeOp r v]
  | .rd r => [.regRead r.offset]
  | .mw addr bytes => bytes.zipIdx.map fun b => .memWrite (addr + b.2) b.1
  | .mr addr n => (List.range n).map fun i => .memRead (addr + i)
  | .command i => [writeOp .cmd (encode i)]
  | .buf s d w h => [writeOp .src s, writeOp .dst d, writeOp .width w, writeOp .height h]
  | .setg p => [writeOp .gammaLo (p.extractLsb' 0 32), writeOp .gammaHi (p.extractLsb' 32 32)]
  | .setk j p => setWeightOps j p
  | .kern p0 p1 p2 p3 p4 p5 p6 p7 p8 =>
    setWeightOps 0 p0 ++ setWeightOps 1 p1 ++ setWeightOps 2 p2 ++ setWeightOps 3 p3 ++ setWeightOps 4 p4
      ++ setWeightOps 5 p5 ++ setWeightOps 6 p6 ++ setWeightOps 7 p7 ++ setWeightOps 8 p8
  | .clrerr => [writeOp .status 1]

/-- The host operations of a script. -/
def scriptOps (lines : List ScriptLine) : List Input := lines.flatMap ScriptLine.ops

/-- A state whose host is about to run a script. -/
def State.withScript (lines : List ScriptLine) (s : State) : State := s.withInputs (scriptOps lines)

end Sys2Proof.Machine
end

