-- ==== Sys2Proof/Safety.lean ====
section
/-! DEFINITION. What the claims call a good state and a good step, in the spec's own terms: the conditions under which a command
is accepted (R98), the invariant of the state, and a step that goes on. -/

namespace Sys2Proof.Machine

/-- The machine goes on: it neither faults nor refuses. Every command does so, whatever the registers and pixel memory hold
(R261). -/
def goesOn (o : Host.Outcome State Fault Refusal) : Prop := ∃ t, o = .next t

/-- Two ranges of `m` bytes at `a` and `n` bytes at `b` are disjoint (R72). -/
abbrev disjointRanges (a m b n : Nat) : Prop := a + m ≤ b ∨ b + n ≤ a

/-- The parameter check of a command passes (R232), written on the bits of the registers. -/
abbrev parametersLegal (i : Instr) (s : State) : Prop :=
  match i with
  | .gamma =>
    let g := s.gamma.hi ++ s.gamma.lo
    g.getLsbD 63 = false ∧ g.extractLsb' 52 11 ≠ 2047 ∧ g.extractLsb' 0 63 ≠ 0
  | .conv3 => ∀ r ∈ s.kernel.regs, (r.hi ++ r.lo).extractLsb' 52 11 < 2023
  | .gray | .grayfx | .histeq | .mean3 | .otsu => True

/-- The conditions under which a command is executed: none of the steps 1 to 7 of R98 ends its processing. -/
structure Accepts (i : Instr) (s : State) : Prop where
  /-- ERR = 0 (R235). -/
  notLatched : s.err = false
  /-- WIDTH ≠ 0 (R228). -/
  width : s.width ≠ 0
  /-- HEIGHT ≠ 0 (R228). -/
  height : s.height ≠ 0
  /-- The source range lies in pixel memory (R229). -/
  source : s.src.toNat + s.sourceSize i ≤ s.memSize
  /-- The destination range lies in pixel memory (R230). -/
  destination : s.dst.toNat + s.pixelCount ≤ s.memSize
  /-- The ranges are disjoint, or the command is a point command and works in place (R72, R231). -/
  aliasing : disjointRanges s.src.toNat (s.sourceSize i) s.dst.toNat s.pixelCount
    ∨ (commandClass i = .point ∧ s.dst = s.src)
  /-- g or the weights are legal (R232). -/
  parameters : parametersLegal i s

/-- Nothing but pixel memory differs: no register, flag or other field. -/
abbrev onlyMemoryDiffers (s t : State) : Prop := t = { s with mem := t.mem }

/-- Every byte of pixel memory outside the destination range [DST, DST + N) reads as before (R68). -/
abbrev keptOutsideDestination (s t : State) : Prop :=
  ∀ a, (a < s.dst.toNat ∨ s.dst.toNat + s.pixelCount ≤ a) → t.readByte a = s.readByte a

/-- hist[v] by its definition: the number of p in 0..N-1 whose source sample is v (R155, R195). -/
abbrev sampleCount (s : State) (v : Nat) : Nat :=
  (List.range s.pixelCount).countP fun p => (s.readByte (s.src.toNat + p)).toNat == v

/-- The clamp-to-edge read around column x and row y of the source image, at offset (dx, dy), by R69. -/
abbrev clampedRead (s : State) (x y : Nat) (dx dy : Int) : Byte :=
  s.readByte (s.src.toNat + (min (max ((y : Int) + dy) 0) ((s.height.toNat : Int) - 1)).toNat * s.width.toNat
    + (min (max ((x : Int) + dx) 0) ((s.width.toNat : Int) - 1)).toNat)

/-- A cause and the word latched with it agree: ILLEGAL goes with a word that selects no command (R227), PARAM with GAMMA or
CONV3 (R232), every other cause with a word that selects a command (R226). -/
def Cause.agreesWith (c : Cause) (word : Word) : Prop :=
  match c with
  | .illegal => ∀ i, decode word ≠ .ok i
  | .param => decode word = .ok .gamma ∨ decode word = .ok .conv3
  | .dim | .srcRange | .resource | .overlap => ∃ i, decode word = .ok i

/-- The invariant of the state: it holds at reset and every step keeps it. -/
structure State.Inv (s : State) : Prop where
  /-- The list of written bytes is in canonical form. -/
  memoryForm : s.mem.wf = true
  /-- A written byte lies in pixel memory (R30, R61, R216). -/
  memoryInside : ∀ c ∈ s.mem, c.1 < s.memSize
  /-- 1 ≤ MEM_SIZE ≤ 2^32 (R10). -/
  memorySize : 1 ≤ s.memSize ∧ s.memSize ≤ 2 ^ 32
  /-- ERRCODE and ERRCMD are 0 when ERR = 0 (R26). -/
  noCauseWithoutError : s.err = false → s.errcode = 0 ∧ s.errcmd = 0
  /-- When ERR = 1, ERRCODE is one of the codes 1 to 6 and goes with the word in ERRCMD (R26, R226). -/
  causeWithError : s.err = true → ∃ c : Cause, s.errcode = c.code ∧ c.agreesWith s.errcmd
  /-- THRESH holds an integer 0..254 (R23). -/
  thresholdRange : s.thresh.toNat ≤ 254
  /-- THRESH reads 0 until the first successful OTSU (R23). -/
  thresholdInvalid : s.tv = false → s.thresh = 0

end Sys2Proof.Machine
end

