-- ==== Sys2Proof/Certificates/Slice0/Obligations.lean ====
section
/-! DEFINITION. The statements for the provers, family by family. Each docstring names the rule of spec/ that it formalises. -/

open Sys2Proof Sys2Proof.Machine

/-! ### Encoding and issue -/

/-- The seven words of R91 select their commands; the zero word, the next code and a word with ZERO set select none (R93). -/
def Obligations.TableWordsSelectTheirCommands : Prop :=
  decode 0x00000001 = .ok .gray ∧ decode 0x00000002 = .ok .grayfx ∧ decode 0x00000003 = .ok .histeq
  ∧ decode 0x00000004 = .ok .gamma ∧ decode 0x00000005 = .ok .conv3 ∧ decode 0x00000006 = .ok .mean3
  ∧ decode 0x00000007 = .ok .otsu ∧ decode 0x00000000 = .error .reservedOpcode
  ∧ decode 0x00000008 = .error .reservedOpcode ∧ decode 0x00000107 = .error .zeroFieldSet

/-- A word selects a command exactly when the whole word is that command's word (R91): decoding an encoded command gives it
back, and no other word decodes to it. -/
def Obligations.OnlyTheEncodedWordDecodesToACommand : Prop :=
  ∀ (c : Word) (i : Instr), decode c = .ok i ↔ c = encode i

/-- A host write to CMD of a word that selects command i runs exactly that command, on the state with that operation taken off
the host's list; and the command word that `withFetchWord` places is run by the very next step (R90, R212). -/
def Obligations.StepRunsTheDecodedCommand : Prop :=
  (∀ (s : State) (c : Word) (rest : List Input) (i : Instr),
    s.inputs = .regWrite 0x00 c :: rest → decode c = .ok i → step s = exec i (s.withInputs rest))
  ∧ ∀ (s : State) (i : Instr), step (s.withFetchWord 32 (encode i).toNat) = exec i s

/-- What a host write of c to CMD does, up to the execution of an accepted command: the checks in their fixed order, the first
that fails giving the cause, and a refusal writing ERR, ERRCODE and ERRCMD and nothing else (R227 to R231, R233, R234). -/
def Obligations.CommandChecksRunInTheirFixedOrder : Prop :=
  ∀ (s : State) (c : Word) (rest : List Input), s.inputs = .regWrite 0x00 c :: rest →
    let u : State := { s with inputs := rest }
    let N := s.width.toNat * s.height.toNat
    let SB := if c = 1 ∨ c = 2 then 3 * N else N
    let G : BitVec 64 := s.gamma.hi ++ s.gamma.lo
    let refusedWith (code : BitVec 3) : Host.Outcome State Fault Refusal :=
      .next { u with err := true, errcode := code, errcmd := c }
    if s.err = true then step s = .next u
    else if c.extractLsb' 8 24 ≠ 0 ∨ c.extractLsb' 0 8 = 0 ∨ 8 ≤ c.extractLsb' 0 8 then step s = refusedWith 1
    else if s.width = 0 ∨ s.height = 0 then step s = refusedWith 2
    else if s.memSize < s.src.toNat + SB then step s = refusedWith 3
    else if s.memSize < s.dst.toNat + N then step s = refusedWith 4
    else if (s.src.toNat < s.dst.toNat + N ∧ s.dst.toNat < s.src.toNat + SB)
        ∧ (c = 1 ∨ c = 2 ∨ c = 5 ∨ c = 6 ∨ s.dst ≠ s.src) then step s = refusedWith 5
    else if (c = 4 ∧ (G.getLsbD 63 = true ∨ G.extractLsb' 52 11 = 2047 ∨ G.extractLsb' 0 63 = 0))
        ∨ (c = 5 ∧ ∃ k ∈ s.kernel.regs, 2023 ≤ (k.hi ++ k.lo : BitVec 64).extractLsb' 52 11) then
      step s = refusedWith 6
    else ∃ t, step s = .next t ∧ t.err = false ∧ t.errcode = s.errcode ∧ t.errcmd = s.errcmd

/-- WIDTH·HEIGHT is never reduced modulo 2^32: an image of more than 2^32 pixels is refused with cause SRC_RANGE, whatever the
implementation's MEM_SIZE (R10, R68). -/
def Obligations.HugeImageIsRefusedNotWrapped : Prop :=
  ∀ (i : Instr) (s : State), s.err = false → s.memSize ≤ 2 ^ 32 → 2 ^ 32 < s.width.toNat * s.height.toNat →
    exec i s = .next { s with err := true, errcode := 3, errcmd := encode i }

/-! ### What each command does when it is accepted -/

/-- GRAY (R141): every pixel gets the rounded luma of its three source bytes; nothing else changes. -/
def Obligations.GrayWritesTheRoundedLuma : Prop :=
  ∀ s : State, Accepts .gray s →
    ∃ t, exec .gray s = .next t ∧ onlyMemoryDiffers s t ∧ keptOutsideDestination s t
      ∧ ∀ p, p < s.width.toNat * s.height.toNat →
        let R := s.readByte (s.src.toNat + 3 * p)
        let G := s.readByte (s.src.toNat + 3 * p + 1)
        let B := s.readByte (s.src.toNat + 3 * p + 2)
        t.readByte (s.dst.toNat + p) = clampRound
          (fadd (fadd (fmul 0x3FD322D0E5604189 (ofInt R.toNat)) (fmul 0x3FE2C8B439581062 (ofInt G.toNat)))
            (fmul 0x3FBD2F1A9FBE76C9 (ofInt B.toNat)))

/-- GRAYFX (R111, R143): every pixel, of the remainder too, gets floor((77·R + 150·G + 29·B) / 256); nothing else changes. -/
def Obligations.GrayfxWritesTheTruncatedFixedPointLuma : Prop :=
  ∀ s : State, Accepts .grayfx s →
    ∃ t, exec .grayfx s = .next t ∧ onlyMemoryDiffers s t ∧ keptOutsideDestination s t
      ∧ ∀ p, p < s.width.toNat * s.height.toNat →
        let R := s.readByte (s.src.toNat + 3 * p)
        let G := s.readByte (s.src.toNat + 3 * p + 1)
        let B := s.readByte (s.src.toNat + 3 * p + 2)
        (t.readByte (s.dst.toNat + p)).toNat = (77 * R.toNat + 150 * G.toNat + 29 * B.toNat) / 256

/-- HISTEQ (R155): with the histogram of the source as it was, a constant image is copied and any other is sent through the
table; nothing else changes. -/
def Obligations.HisteqSendsSamplesThroughItsTable : Prop :=
  ∀ s : State, Accepts .histeq s →
    ∃ t, exec .histeq s = .next t ∧ onlyMemoryDiffers s t ∧ keptOutsideDestination s t
      ∧ ∀ gmin, 0 < sampleCount s gmin → (∀ v < gmin, sampleCount s v = 0) →
        let N := s.width.toNat * s.height.toNat
        let cum (i : Nat) := ∑ v ∈ Finset.range (i + 1), sampleCount s v
        ∀ p, p < N →
          let v := s.readByte (s.src.toNat + p)
          t.readByte (s.dst.toNat + p) =
            if N = cum gmin then v
            else if v = 0 then 0
            else clampRound (fdiv (fmul 0x406FE00000000000 (ofInt ((cum v.toNat : Int) - (cum gmin : Int))))
              (ofInt ((N : Int) - (cum gmin : Int))))

/-- GAMMA (R170): every sample v becomes clamp_round(255·POW(v/255, g)); nothing else changes. -/
def Obligations.GammaSendsSamplesThroughThePowerTable : Prop :=
  ∀ s : State, Accepts .gamma s →
    ∃ t, exec .gamma s = .next t ∧ onlyMemoryDiffers s t ∧ keptOutsideDestination s t
      ∧ ∀ p, p < s.width.toNat * s.height.toNat →
        t.readByte (s.dst.toNat + p) = clampRound (fmul 0x406FE00000000000
          (pow (fdiv (ofInt (s.readByte (s.src.toNat + p)).toNat) 0x406FE00000000000) (s.gamma.hi ++ s.gamma.lo)))

/-- CONV3 (R69, R180): pixel (x, y) gets the nine products of the weights K0..K8, as they stand, with the clamp-to-edge
neighbours from the upper left to the lower right, accumulated in that order from +0.0; nothing else changes. -/
def Obligations.Conv3AccumulatesNineWeightedNeighbours : Prop :=
  ∀ s : State, Accepts .conv3 s →
    ∃ t, exec .conv3 s = .next t ∧ onlyMemoryDiffers s t ∧ keptOutsideDestination s t
      ∧ ∀ x y, x < s.width.toNat → y < s.height.toNat →
        let term (acc : Double) (k : Reg64) (dx dy : Int) : Double :=
          fadd acc (fmul (k.hi ++ k.lo) (ofInt (clampedRead s x y dx dy).toNat))
        let top := term (term (term 0x0000000000000000 s.kernel.k0 (-1) (-1)) s.kernel.k1 0 (-1)) s.kernel.k2 1 (-1)
        let middle := term (term (term top s.kernel.k3 (-1) 0) s.kernel.k4 0 0) s.kernel.k5 1 0
        let bottom := term (term (term middle s.kernel.k6 (-1) 1) s.kernel.k7 0 1) s.kernel.k8 1 1
        t.readByte (s.dst.toNat + y * s.width.toNat + x) = clampRound bottom

/-- MEAN3 (R69, R182, R183): every pixel, border pixels included, gets the sum of its nine clamp-to-edge neighbours divided by
9, truncated; nothing else changes. -/
def Obligations.Mean3TruncatesTheNeighbourhoodMean : Prop :=
  ∀ s : State, Accepts .mean3 s →
    ∃ t, exec .mean3 s = .next t ∧ onlyMemoryDiffers s t ∧ keptOutsideDestination s t
      ∧ ∀ x y, x < s.width.toNat → y < s.height.toNat →
        let at' (dx dy : Int) : Nat := (clampedRead s x y dx dy).toNat
        (t.readByte (s.dst.toNat + y * s.width.toNat + x)).toNat =
          (at' (-1) (-1) + at' 0 (-1) + at' 1 (-1) + at' (-1) 0 + at' 0 0 + at' 1 0 + at' (-1) 1 + at' 0 1 + at' 1 1) / 9

/-- OTSU (R195): THRESH gets the smallest cut in 0..254 of least cost, TV becomes 1, and every sample v becomes 0 if v ≤ t* and
255 otherwise; nothing else changes. -/
def Obligations.OtsuCutsAtTheFirstLeastCost : Prop :=
  ∀ s : State, Accepts .otsu s →
    let N := s.width.toNat * s.height.toNat
    let h (i : Nat) : Rat := sampleCount s i
    let cost (t : Nat) : Rat :=
      let n0 := ∑ i ∈ Finset.Icc 0 t, h i
      let n1 := (N : Rat) - n0
      let S0 := ∑ i ∈ Finset.Icc 0 t, (i : Rat) * h i
      let S1 := ∑ i ∈ Finset.Icc (t + 1) 255, (i : Rat) * h i
      let Q0 := ∑ i ∈ Finset.Icc 0 t, (i : Rat) * i * h i
      let Q1 := ∑ i ∈ Finset.Icc (t + 1) 255, (i : Rat) * i * h i
      (if n0 = 0 then 0 else (Q0 - S0 * S0 / n0) / N) + (if n1 = 0 then 0 else (Q1 - S1 * S1 / n1) / N)
    ∃ t cut, exec .otsu s = .next t ∧ cut ≤ 254 ∧ (∀ u ≤ 254, cost cut ≤ cost u) ∧ (∀ u < cut, cost cut < cost u)
      ∧ t.thresh.toNat = cut ∧ t = { s with thresh := t.thresh, tv := true, mem := t.mem }
      ∧ keptOutsideDestination s t
      ∧ ∀ p, p < N → t.readByte (s.dst.toNat + p) = if (s.readByte (s.src.toNat + p)).toNat ≤ cut then 0 else 255

/-! ### What no command does -/

/-- No command changes SRC, DST, WIDTH, HEIGHT, GAMMA or K0..K8 (R34). -/
def Obligations.NoCommandChangesOperandRegisters : Prop :=
  ∀ (i : Instr) (s t : State), exec i s = .next t →
    t.src = s.src ∧ t.dst = s.dst ∧ t.width = s.width ∧ t.height = s.height ∧ t.gamma = s.gamma ∧ t.kernel = s.kernel

/-- The frame of every command, whatever becomes of it: no byte outside the destination range changes (R61), no byte at all
when ERR = 1 afterwards (R233, R235), THRESH and TV only in OTSU (R25, R195), and nothing outside the block. -/
def Obligations.CommandsChangeOnlyTheirDestinationBytes : Prop :=
  ∀ (i : Instr) (s t : State), exec i s = .next t →
    keptOutsideDestination s t
    ∧ (t.err = true → ∀ a, t.readByte a = s.readByte a)
    ∧ (i ≠ .otsu ∨ t.err = true → t.thresh = s.thresh ∧ t.tv = s.tv)
    ∧ (t.err = false → t.errcode = s.errcode ∧ t.errcmd = s.errcmd)
    ∧ t.memSize = s.memSize ∧ t.resets = s.resets ∧ t.draws = s.draws ∧ t.inputs = s.inputs ∧ t.replies = s.replies

/-- Every command ends, ignored, refused or executed, whatever the registers and pixel memory hold: none faults (R61, R261). -/
def Obligations.EveryCommandEnds : Prop :=
  ∀ (i : Instr) (s : State), ∃ t, exec i s = .next t

/-- The machine stops only where the host asks for something that is no operation of its interface, a register access at an
offset that is not a multiple of 4 (R70, R210, U6); there it stops by name. -/
def Obligations.OnlyMisalignedRegisterAccessStops : Prop :=
  ∀ s : State, (∃ t, step s = .next t)
    ∨ (step s = .refused .misalignedRegisterAccess
      ∧ ∃ off rest, off % 4 ≠ 0 ∧ (s.inputs = .regRead off :: rest ∨ ∃ v, s.inputs = .regWrite off v :: rest))

/-- GAMMA and K0..K8 are read by the command GAMMA and by CONV3 alone: with any other content there, every other command does
the same, whatever it was going to do (R22, R232). -/
def Obligations.OtherCommandsIgnoreTheParameterRegisters : Prop :=
  (∀ (i : Instr) (s : State) (g : Reg64), i ≠ .gamma →
    ∃ t, exec i s = .next t ∧ exec i { s with gamma := g } = .next { t with gamma := g })
  ∧ ∀ (i : Instr) (s : State) (k : Kernel), i ≠ .conv3 →
    ∃ t, exec i s = .next t ∧ exec i { s with kernel := k } = .next { t with kernel := k }

/-- The result of an accepted command is a function of the registers and of the source range as it was: states that agree on
them, and differ in any other byte of memory, in THRESH and TV or outside the block, get the same destination bytes and the
same cut (R31, R62, R72). -/
def Obligations.ResultDependsOnlyOnRegistersAndSource : Prop :=
  ∀ (i : Instr) (s s' : State), Accepts i s → s'.err = s.err → s'.src = s.src → s'.dst = s.dst → s'.width = s.width →
    s'.height = s.height → s'.gamma = s.gamma → s'.kernel = s.kernel → s'.memSize = s.memSize →
    (∀ p, p < s.sourceSize i → s'.readByte (s.src.toNat + p) = s.readByte (s.src.toNat + p)) →
    ∃ t t', exec i s = .next t ∧ exec i s' = .next t'
      ∧ (∀ p, p < s.pixelCount → t'.readByte (s.dst.toNat + p) = t.readByte (s.dst.toNat + p))
      ∧ (i = .otsu → t'.thresh = t.thresh)

/-- A point command in place gives the bytes, and OTSU the cut, that it gives with a disjoint destination (R62, R198 (d)). -/
def Obligations.InPlaceResultEqualsDisjointResult : Prop :=
  ∀ (i : Instr) (s : State) (d : Word), commandClass i = .point → s.dst = s.src → Accepts i s →
    Accepts i { s with dst := d } →
    ∃ t t', exec i s = .next t ∧ exec i { s with dst := d } = .next t'
      ∧ (∀ p, p < s.pixelCount → t'.readByte (d.toNat + p) = t.readByte (s.src.toNat + p))
      ∧ t'.thresh = t.thresh ∧ t'.tv = t.tv

/-! ### The host's operations -/

/-- Between two host operations the block does nothing (R217). -/
def Obligations.IdleBlockDoesNothing : Prop :=
  ∀ s : State, s.inputs = [] → step s = .next s

/-- `RegRead(off)` returns the value of the table of R210 and changes nothing of the block; at an offset that is not a multiple
of 4 there is no such operation. -/
def Obligations.RegisterReadsFollowTheMap : Prop :=
  ∀ (s : State) (off : Nat) (rest : List Input), s.inputs = .regRead off :: rest →
    let v : Word :=
      if off = 0x00 then 0
      else if off = 0x04 then (if s.tv then 2 else 0) + (if s.err then 1 else 0)
      else if off = 0x08 then s.errcode.setWidth 32
      else if off = 0x0C then s.errcmd
      else if off = 0x10 then s.src
      else if off = 0x14 then s.dst
      else if off = 0x18 then s.width
      else if off = 0x1C then s.height
      else if off = 0x20 then s.thresh.setWidth 32
      else if off = 0x28 then s.gamma.lo
      else if off = 0x2C then s.gamma.hi
      else if 0x30 ≤ off ∧ off < 0x78 then
        let k := s.kernel.regs.getD ((off - 0x30) / 8) s.kernel.k0
        if (off - 0x30) % 8 = 0 then k.lo else k.hi
      else 0
    if off % 4 = 0 then step s = .next { s with inputs := rest, replies := .word v :: s.replies }
    else step s = .refused .misalignedRegisterAccess

/-- `RegWrite(off, v)` does what the table of R211 says, at any time and also while ERR = 1. At an offset that is not a multiple
of 4 there is no such operation (R210, U6); that the model answers there with a refusal by name is its own choice, log
entry 8. -/
def Obligations.RegisterWritesFollowTheMap : Prop :=
  ∀ (s : State) (off : Nat) (v : Word) (rest : List Input), s.inputs = .regWrite off v :: rest →
    let u : State := { s with inputs := rest }
    if off % 4 ≠ 0 then step s = .refused .misalignedRegisterAccess
    else if off = 0x00 then step s = issue v u
    else if off = 0x04 then
      step s = .next (if v.getLsbD 0 then { u with err := false, errcode := 0, errcmd := 0 } else u)
    else if off = 0x10 then step s = .next { u with src := v }
    else if off = 0x14 then step s = .next { u with dst := v }
    else if off = 0x18 then step s = .next { u with width := v }
    else if off = 0x1C then step s = .next { u with height := v }
    else if off = 0x28 then step s = .next { u with gamma := { lo := v, hi := s.gamma.hi } }
    else if off = 0x2C then step s = .next { u with gamma := { lo := s.gamma.lo, hi := v } }
    else if 0x30 ≤ off ∧ off < 0x78 then
      let j := (off - 0x30) / 8
      let old := s.kernel.regs.getD j s.kernel.k0
      ∃ k, step s = .next { u with kernel := k }
        ∧ k.regs = s.kernel.regs.set j
          (if (off - 0x30) % 8 = 0 then { lo := v, hi := old.hi } else { lo := old.lo, hi := v })
    else step s = .next u

/-- A read/write register returns the 32 bits last written, and no write to one changes what any other offset reads (R21, R22,
R29). -/
def Obligations.WrittenRegisterReadsBack : Prop :=
  ∀ (s : State) (off : Nat) (v : Word) (rest : List Input), s.inputs = .regWrite off v :: rest → off % 4 = 0 →
    (0x10 ≤ off ∧ off < 0x20 ∨ 0x28 ≤ off ∧ off < 0x78) →
    ∃ t, step s = .next t
      ∧ ∀ off', off' % 4 = 0 →
        t.readRegister (registerAt off') = if off' = off then v else s.readRegister (registerAt off')

/-- Register names and offsets agree (R28), so a script line addresses the register it names (R95): every register stands at its
offset, and at every aligned offset with a register that register's offset is the offset itself. -/
def Obligations.RegisterNamesAndOffsetsAgree : Prop :=
  (∀ r : Register, r ≠ .reserved → registerAt r.offset = r ∧ r.offset % 4 = 0 ∧ r.offset < 0x78)
  ∧ (∀ off, off % 4 = 0 → registerAt off ≠ .reserved → (registerAt off).offset = off)
  ∧ ∀ off, off % 4 = 0 → (registerAt off = .reserved ↔ off = 0x24 ∨ 0x78 ≤ off)

/-- The script line `setk j, p` leaves the 64-bit pattern p in register Kj and changes no other register, whatever the error latch
holds (R96, R211, R259). -/
def Obligations.SetkLineStoresTheWholeWeight : Prop :=
  ∀ (s : State) (j : Fin 9) (p : Double) (rest : List Input), s.inputs = (ScriptLine.setk j p).ops ++ rest →
    ∃ t u, step s = .next t ∧ step t = .next u
      ∧ u = { s with inputs := rest, kernel := u.kernel }
      ∧ (u.kernel.get j).double = p ∧ ∀ i, i ≠ j → u.kernel.get i = s.kernel.get i

/-- A write to STATUS clears the error state exactly when bit 0 of the written value is 1, changes nothing else, and changes
nothing at all if ERR was 0 (R213). -/
def Obligations.StatusWriteClearsTheErrorState : Prop :=
  ∀ (s : State) (v : Word) (rest : List Input), s.inputs = .regWrite 0x04 v :: rest →
    (v.getLsbD 0 = true → step s = .next { s with inputs := rest, err := false, errcode := 0, errcmd := 0 })
    ∧ (v.getLsbD 0 = false → step s = .next { s with inputs := rest })
    ∧ (s.Inv → s.err = false → step s = .next { s with inputs := rest })

/-- `HostMemRead(addr)` inside pixel memory returns the byte there and changes nothing of the block (R214). -/
def Obligations.HostReadReturnsTheByte : Prop :=
  ∀ (s : State) (addr : Nat) (rest : List Input), s.inputs = .memRead addr :: rest → addr < s.memSize →
    step s = .next { s with inputs := rest, replies := .byte (s.readByte addr) :: s.replies }

/-- `HostMemWrite(addr, b)` inside pixel memory sets that byte and changes nothing else (R65, R215). -/
def Obligations.HostWriteSetsTheByte : Prop :=
  ∀ (s : State) (addr : Nat) (b : Byte) (rest : List Input), s.inputs = .memWrite addr b :: rest → addr < s.memSize →
    ∃ t, step s = .next t ∧ t = { s with inputs := rest, mem := t.mem }
      ∧ ∀ a, t.readByte a = if a = addr then b else s.readByte a

/-- A host access beyond pixel memory changes no state of the block: a write does nothing, and a read returns some byte, which
is unspecified (R216; the free byte is log entry 4). -/
def Obligations.HostAccessBeyondMemoryChangesNothing : Prop :=
  ∀ (s : State) (addr : Nat) (rest : List Input), s.memSize ≤ addr →
    (s.inputs = .memRead addr :: rest →
      ∃ b, step s = .next { s with inputs := rest, replies := .byte b :: s.replies, draws := s.draws + 1 })
    ∧ ∀ b, s.inputs = .memWrite addr b :: rest → step s = .next { s with inputs := rest }

/-! ### The error latch, the threshold flag, reset and the invariant -/

/-- The only ways out of the latched state are a write of 1 to STATUS bit 0 and reset, and both clear ERRCODE and ERRCMD with
ERR (R236). -/
def Obligations.OnlyStatusWriteOrResetLeavesTheLatch : Prop :=
  ∀ s t : State, s.err = true → step s = .next t → t.err = false →
    t.errcode = 0 ∧ t.errcmd = 0
    ∧ ((∃ v rest, s.inputs = .regWrite 0x04 v :: rest ∧ v.getLsbD 0 = true) ∨ ∃ rest, s.inputs = .reset :: rest)

/-- THRESH and TV change in two ways only: a successful OTSU sets TV, and reset clears both (R23, R25). -/
def Obligations.OnlyOtsuOrResetChangesTheThreshold : Prop :=
  ∀ s t : State, step s = .next t → (t.tv ≠ s.tv ∨ t.thresh ≠ s.thresh) →
    (∃ rest, s.inputs = .reset :: rest ∧ t.tv = false ∧ t.thresh = 0)
    ∨ ∃ rest, s.inputs = .regWrite 0x00 0x00000007 :: rest ∧ s.err = false ∧ t.err = false ∧ t.tv = true

/-- The state after reset meets the invariant. -/
def Obligations.ResetMeetsTheInvariant : Prop := State.reset.Inv

/-- Every step keeps the invariant: memory stays in canonical form inside [0, MEM_SIZE), ERRCODE and ERRCMD are 0 while ERR = 0
and otherwise hold a cause and a word that goes with it, and THRESH stays in 0..254 and 0 while TV = 0. -/
def Obligations.EveryStepKeepsTheInvariant : Prop :=
  ∀ s t : State, s.Inv → step s = .next t → t.Inv

/-- After reset every register offset reads 0 (R32, R251). -/
def Obligations.EveryRegisterReadsZeroAfterReset : Prop :=
  ∀ off, off % 4 = 0 → State.reset.readRegister (registerAt off) = 0

/-- The platform's reset puts every register at 0 and makes pixel memory unspecified anew, while the implementation and the
outside world stay as they are (R32, R250). The model's free byte for unspecified memory is log entry 3. -/
def Obligations.PlatformResetClearsTheBlock : Prop :=
  ∀ (s : State) (rest : List Input), s.inputs = .reset :: rest →
    ∃ t, step s = .next t ∧ (∀ off, off % 4 = 0 → t.readRegister (registerAt off) = 0)
      ∧ (∀ a, t.readByte a = Config.powerOnByte (s.resets + 1) a)
      ∧ t.memSize = s.memSize ∧ t.inputs = rest ∧ t.replies = s.replies ∧ t.draws = s.draws

/-! ### Binary64 -/

/-- `fl` rounds to nearest, ties to even, with gradual underflow and overflow to infinity, by the definition of R113; each
operation rounds the exact result of its finite operands once, and an exact result of zero is a zero with the sign that the
operation gives it (R115 to R117). -/
def Obligations.FlRoundsToNearestTiesToEven : Prop :=
  (∀ (q : Rat) (e : Int), (2 : Rat) ^ e ≤ |q| → |q| < (2 : Rat) ^ (e + 1) →
    let u : Rat := if -1022 ≤ e then (2 : Rat) ^ (e - 52) else (2 : Rat) ^ (-1074 : Int)
    ∀ m : Int, (|q / u - m| < 1 / 2 ∨ (|q / u - m| = 1 / 2 ∧ Even m)) →
      if (2 : Rat) ^ (1024 : Int) ≤ |m * u| then
        fl q = if q < 0 then 0xFFF0000000000000 else 0x7FF0000000000000
      else isFinite (fl q) = true ∧ value (fl q) = m * u ∧ (signBit (fl q) = true ↔ q < 0))
  ∧ isZero (fl 0) = true
  ∧ ∀ a b : Double, isFinite a = true → isFinite b = true →
    (value a * value b ≠ 0 → fmul a b = fl (value a * value b))
    ∧ (value a * value b = 0 → isZero (fmul a b) = true ∧ signBit (fmul a b) = (signBit a != signBit b))
    ∧ (value a + value b ≠ 0 → fadd a b = fl (value a + value b))
    ∧ (value a + value b = 0 →
      fadd a b = if a = 0x8000000000000000 ∧ b = 0x8000000000000000 then 0x8000000000000000 else 0x0000000000000000)
    ∧ (value a ≠ 0 → value b ≠ 0 → fdiv a b = fl (value a / value b))
    ∧ (value a = 0 → value b ≠ 0 → isZero (fdiv a b) = true ∧ signBit (fdiv a b) = (signBit a != signBit b))

/-- `of_int` is exact below 2^53 in magnitude (R114). -/
def Obligations.OfIntIsExact : Prop :=
  ∀ n : Int, n.natAbs < 2 ^ 53 → isFinite (ofInt n) = true ∧ value (ofInt n) = n ∧ (n = 0 → ofInt n = 0x0000000000000000)

/-- `clamp_round` by the cases of R118, and, on every finite pattern, as rounding half away from zero first and saturating to
[0, 255] second. -/
def Obligations.ClampRoundRoundsHalfAwayAndSaturates : Prop :=
  ∀ f : Double,
    (isNaN f = true → clampRound f = 0)
    ∧ (isInfinite f = true → clampRound f = if signBit f then 0 else 255)
    ∧ (isFinite f = true →
      (value f < 1 / 2 → clampRound f = 0)
      ∧ (509 / 2 ≤ value f → clampRound f = 255)
      ∧ (1 / 2 ≤ value f → value f < 509 / 2 → ((clampRound f).toNat : Int) = ⌊value f + 1 / 2⌋)
      ∧ ((clampRound f).toNat : Int)
          = max 0 (min 255 (if 0 ≤ value f then ⌊value f + 1 / 2⌋ else -⌊-(value f) + 1 / 2⌋)))

/-- The accumulator of CONV3 stays finite under the weights that the parameter check admits, after any number of its nine terms
and whatever the samples: no infinity and no NaN arises (R119). -/
def Obligations.ConvolutionNeverOverflows : Prop :=
  ∀ (weights : List Double) (samples : List Byte), weights.length ≤ 9 →
    (∀ w ∈ weights, w.extractLsb' 52 11 < 2023) →
    isFinite (convolve weights samples) = true ∧ |value (convolve weights samples)| < (2 : Rat) ^ (1012 : Int)

/-! ### The colour reducer -/

/-- The documented deviation (R144): the fixed-point result is the binary64 result or one level below it. -/
def Obligations.GrayfxIsGrayOrOneBelow : Prop :=
  ∀ r g b : Byte, (grayfxPixel r g b).toNat = (grayPixel r g b).toNat
    ∨ (grayfxPixel r g b).toNat + 1 = (grayPixel r g b).toNat

/-- GRAY against decimal arithmetic (R142): away from the exact decimal ties it is the decimal sum rounded to nearest; at a tie
it is that, a tie going up, or one below. -/
def Obligations.GrayIsTheDecimalLumaRounded : Prop :=
  ∀ r g b : Byte,
    let sum := 299 * r.toNat + 587 * g.toNat + 114 * b.toNat
    if sum % 1000 = 500 then
      (grayPixel r g b).toNat = (sum + 500) / 1000 ∨ (grayPixel r g b).toNat + 1 = (sum + 500) / 1000
    else (grayPixel r g b).toNat = (sum + 500) / 1000

/-! ### The histogram equalizer -/

/-- The exact integer form of the table (R156). -/
def Obligations.EqualizerTableHasAnIntegerForm : Prop :=
  ∀ samples : List Byte, samples.length ≤ 2 ^ 32 →
    let hist := histogram samples
    let N := samples.length
    let hmin := darkestCount hist
    N ≠ hmin → ∀ i, 1 ≤ i → i ≤ 255 →
      (equalizeEntry hist N i).toNat =
        if cumulative hist i ≤ hmin then 0
        else (510 * (cumulative hist i - hmin) + (N - hmin)) / (2 * (N - hmin))

/-- The table starts at 0, is 0 up to the darkest intensity and never decreases (R157). -/
def Obligations.EqualizerTableNeverDecreases : Prop :=
  ∀ samples : List Byte, samples.length ≤ 2 ^ 32 →
    let hist := histogram samples
    let N := samples.length
    N ≠ darkestCount hist →
      equalizeEntry hist N 0 = 0
      ∧ (∀ i, i ≤ darkest hist → equalizeEntry hist N i = 0)
      ∧ ∀ i j, i ≤ j → j ≤ 255 → (equalizeEntry hist N i).toNat ≤ (equalizeEntry hist N j).toNat

/-- HISTEQ leaves a constant image unchanged, and copies it to a disjoint destination (R158). -/
def Obligations.HisteqCopiesAConstantImage : Prop :=
  ∀ (s : State) (v : Byte), Accepts .histeq s → (∀ p, p < s.pixelCount → s.readByte (s.src.toNat + p) = v) →
    ∃ t, exec .histeq s = .next t ∧ ∀ p, p < s.pixelCount → t.readByte (s.dst.toNat + p) = v

/-- HISTEQ preserves the order of intensities, and stretches an image that is not constant over the whole range: its darkest
pixels become 0 and its brightest 255 (R159). -/
def Obligations.HisteqStretchesOverTheFullRange : Prop :=
  ∀ s : State, Accepts .histeq s → s.memSize ≤ 2 ^ 32 →
    let before (p : Nat) := (s.readByte (s.src.toNat + p)).toNat
    ∃ t, exec .histeq s = .next t
      ∧ let after (p : Nat) := (t.readByte (s.dst.toNat + p)).toNat
        (∀ p q, p < s.pixelCount → q < s.pixelCount → before p ≤ before q → after p ≤ after q)
        ∧ ((∃ p q, p < s.pixelCount ∧ q < s.pixelCount ∧ before p ≠ before q) →
          ∀ p, p < s.pixelCount →
            ((∀ q, q < s.pixelCount → before p ≤ before q) → after p = 0)
            ∧ ((∀ q, q < s.pixelCount → before q ≤ before p) → after p = 255))

/-! ### The gamma corrector -/

/-- With g = 1.0 the command GAMMA is the identity on every pixel, and its table is the identity for every power function with
POW-ID (R171). -/
def Obligations.GammaOneIsTheIdentity : Prop :=
  (∀ f : Double → Double → Double, PowId f → ∀ i ≤ 255, (gammaEntry f 0x3FF0000000000000 i).toNat = i)
  ∧ ∀ s : State, Accepts .gamma s → s.gamma = { lo := 0x00000000, hi := 0x3FF00000 } →
    ∃ t, exec .gamma s = .next t
      ∧ ∀ p, p < s.pixelCount → t.readByte (s.dst.toNat + p) = s.readByte (s.src.toNat + p)

/-- The command GAMMA leaves black black and white white, whatever the legal g (R170, POW-ZERO and POW-ONE of R123). -/
def Obligations.GammaKeepsBlackAndWhite : Prop :=
  ∀ s : State, Accepts .gamma s →
    ∃ t, exec .gamma s = .next t ∧ ∀ p, p < s.pixelCount →
      (s.readByte (s.src.toNat + p) = 0 → t.readByte (s.dst.toNat + p) = 0)
      ∧ (s.readByte (s.src.toNat + p) = 255 → t.readByte (s.dst.toNat + p) = 255)

/-- For g = 2.0 the whole table is determined by the accuracy of the power function alone (R172, POW-ACC of R123). -/
def Obligations.GammaTwoTableFollowsFromAccuracy : Prop :=
  ∀ f : Double → Double → Double, PowAccAt f 0x4000000000000000 →
    ∀ i ≤ 255, (gammaEntry f 0x4000000000000000 i).toNat = (2 * i * i + 255) / 510

/-- Under POW-MONO the table never decreases (R173 (b)). -/
def Obligations.GammaTableNeverDecreases : Prop :=
  ∀ (f : Double → Double → Double) (g : Double), PowRange f → PowMono f → legalGamma g = true →
    ∀ i j, i ≤ j → j ≤ 255 → (gammaEntry f g i).toNat ≤ (gammaEntry f g j).toNat

/-- The block's power function has every property that R123 lets a claim assume without naming it: POW-RANGE, POW-ZERO, POW-ONE,
POW-ID and POW-ACC, whatever the implementation's routine (log entry 5 says how). -/
def Obligations.PowerFunctionHasItsNamedProperties : Prop :=
  PowRange pow ∧ PowZero pow ∧ PowOne pow ∧ PowId pow ∧ PowAcc pow

/-- No power function that R123 allows is shut out: where a routine's result meets the five properties it is the result of the
power function made from it, and so is any result on operands for which R123 says nothing (log entry 5). -/
def Obligations.AllowedPowerResultsAreKept : Prop :=
  (∀ (f : Double → Double → Double) (i : Nat) (g : Double), i ≤ 255 → legalGamma g = true →
    let r := f (powOperand i) g
    inUnitInterval r = true →
    |((value r : Rat) : Real) - ((value (powOperand i) : Rat) : Real) ^ ((value g : Rat) : Real)| ≤ (1 : Real) / 2 ^ 40 →
    (i = 0 → r = 0x0000000000000000) → (i = 255 → r = 0x3FF0000000000000) →
    (g = 0x3FF0000000000000 → r = powOperand i) → powFrom f (powOperand i) g = r)
  ∧ ∀ (f : Double → Double → Double) (x g : Double),
    (legalGamma g = false ∨ ∀ i ≤ 255, x ≠ powOperand i) → powFrom f x g = f x g

/-- For g = 2.0 the command GAMMA writes floor((2·i² + 255) / 510) for a sample i, and for g = 0.5 the integer nearest to √(255·i),
whatever the implementation's power routine (R172, POW-ACC of R123). -/
def Obligations.GammaCommandAtTwoAndAtOneHalf : Prop :=
  ∀ s : State, Accepts .gamma s →
    ∃ t, exec .gamma s = .next t ∧ ∀ p, p < s.width.toNat * s.height.toNat →
      let i := (s.readByte (s.src.toNat + p)).toNat
      let out := (t.readByte (s.dst.toNat + p)).toNat
      (s.gamma = { lo := 0x00000000, hi := 0x40000000 } → out = (2 * i * i + 255) / 510)
      ∧ (s.gamma = { lo := 0x00000000, hi := 0x3FE00000 } → |(out : Real) - √(255 * (i : Real))| < 1 / 2)

/-- How far the spec determines the command GAMMA with POW left open (R172): for g ≤ 1024, wherever the real value
v = 255·(i/255)^g is farther than 2^(-31) from every half-integer, the result is v rounded to the nearest integer. -/
def Obligations.GammaIsDeterminedAwayFromTies : Prop :=
  ∀ s : State, Accepts .gamma s → value (s.gamma.hi ++ s.gamma.lo) ≤ 1024 →
    ∃ t, exec .gamma s = .next t ∧ ∀ p, p < s.width.toNat * s.height.toNat →
      let v : Real := 255 * (((s.readByte (s.src.toNat + p)).toNat : Real) / 255)
        ^ ((value (s.gamma.hi ++ s.gamma.lo) : Rat) : Real)
      (∀ k : Int, 1 / 2 ^ 31 < |v - (k + 1 / 2)|) →
      ((t.readByte (s.dst.toNat + p)).toNat : Int) = ⌊v + 1 / 2⌋

/-! ### The neighbourhood filter -/

/-- With K4 = 1.0 and every other weight a zero of either sign, CONV3 copies the source exactly, borders included (R181). -/
def Obligations.IdentityKernelCopiesTheImage : Prop :=
  ∀ s : State, Accepts .conv3 s → s.kernel.k4.hi ++ s.kernel.k4.lo = 0x3FF0000000000000#64 →
    (∀ k ∈ [s.kernel.k0, s.kernel.k1, s.kernel.k2, s.kernel.k3, s.kernel.k5, s.kernel.k6, s.kernel.k7, s.kernel.k8],
      k.hi ++ k.lo = 0x0000000000000000#64 ∨ k.hi ++ k.lo = 0x8000000000000000#64) →
    ∃ t, exec .conv3 s = .next t
      ∧ ∀ p, p < s.pixelCount → t.readByte (s.dst.toNat + p) = s.readByte (s.src.toNat + p)

/-- MEAN3 leaves a constant image as it is, and no output sample lies outside the range of the input samples (R182). -/
def Obligations.Mean3StaysWithinTheSampleRange : Prop :=
  ∀ (s : State) (lo hi : Nat), Accepts .mean3 s →
    (∀ p, p < s.pixelCount → lo ≤ (s.readByte (s.src.toNat + p)).toNat ∧ (s.readByte (s.src.toNat + p)).toNat ≤ hi) →
    ∃ t, exec .mean3 s = .next t
      ∧ ∀ p, p < s.pixelCount → lo ≤ (t.readByte (s.dst.toNat + p)).toNat ∧ (t.readByte (s.dst.toNat + p)).toNat ≤ hi

/-! ### The Otsu thresholder -/

/-- OTSU on a constant image: the cut is 0, and the image becomes all 255, or all 0 if its intensity was 0 (R197 (a)). -/
def Obligations.OtsuOnAConstantImage : Prop :=
  ∀ (s : State) (v : Byte), Accepts .otsu s → (∀ p, p < s.pixelCount → s.readByte (s.src.toNat + p) = v) →
    ∃ t, exec .otsu s = .next t ∧ t.thresh = 0
      ∧ ∀ p, p < s.pixelCount → t.readByte (s.dst.toNat + p) = if v = 0 then 0 else 255

/-- OTSU on an image of two intensities a < b: the cut is a itself, a becomes 0 and b becomes 255 (R197 (b)). -/
def Obligations.OtsuOnTwoIntensities : Prop :=
  ∀ (s : State) (a b : Byte), Accepts .otsu s → a.toNat < b.toNat →
    (∀ p, p < s.pixelCount → s.readByte (s.src.toNat + p) = a ∨ s.readByte (s.src.toNat + p) = b) →
    (∃ p, p < s.pixelCount ∧ s.readByte (s.src.toNat + p) = a) →
    (∃ p, p < s.pixelCount ∧ s.readByte (s.src.toNat + p) = b) →
    ∃ t, exec .otsu s = .next t ∧ t.thresh = a
      ∧ ∀ p, p < s.pixelCount →
        t.readByte (s.dst.toNat + p) = if s.readByte (s.src.toNat + p) = a then 0 else 255

/-- The cut is 0 or an intensity that occurs in the image (R197 (e)). -/
def Obligations.OtsuCutIsZeroOrOccurs : Prop :=
  ∀ s : State, Accepts .otsu s →
    ∃ t, exec .otsu s = .next t
      ∧ (t.thresh = 0 ∨ ∃ p, p < s.pixelCount ∧ s.readByte (s.src.toNat + p) = t.thresh)

/-- The classic formulation (R196): N·cost[t] = Q − B(t), so the cut of least within-class cost is the first cut of greatest
between-class sum B. -/
def Obligations.OtsuCutMaximisesBetweenClassSum : Prop :=
  ∀ samples : List Byte, samples ≠ [] →
    let N := samples.length
    let h (i : Nat) : Rat := samples.countP fun b => b.toNat == i
    let Q := ∑ i ∈ Finset.range 256, (i : Rat) * i * h i
    let B (t : Nat) : Rat :=
      let n0 := ∑ i ∈ Finset.Icc 0 t, h i
      let n1 := ∑ i ∈ Finset.Icc (t + 1) 255, h i
      let S0 := ∑ i ∈ Finset.Icc 0 t, (i : Rat) * h i
      let S1 := ∑ i ∈ Finset.Icc (t + 1) 255, (i : Rat) * h i
      (if n0 = 0 then 0 else S0 * S0 / n0) + (if n1 = 0 then 0 else S1 * S1 / n1)
    let cut := cutValue (histogram samples) N
    (∀ t ≤ 254, (N : Rat) * splitCost (histogram samples) N t = Q - B t)
    ∧ cut ≤ 254 ∧ (∀ u ≤ 254, B u ≤ B cut) ∧ ∀ u < cut, B u < B cut
end

