-- ==== Sys2Proof/Laws/Binary64.lean ====
section
/-! SUPPORT. The fields of a pattern built from a sign and bits 62:0, and that a rounded result never reaches a NaN. -/

namespace Sys2Proof.Machine

theorem toNat_packSign (sign : Bool) {n : Nat} (h : n < 2 ^ 63) :
    (packSign sign n).toNat = (if sign then 2 ^ 63 else 0) + n := by
  unfold packSign
  cases sign <;> simp <;> omega

theorem signBit_packSign (sign : Bool) {n : Nat} (h : n < 2 ^ 63) : signBit (packSign sign n) = sign := by
  unfold signBit BitVec.getLsbD
  rw [toNat_packSign sign h, Nat.testBit_eq_decide_div_mod_eq]
  cases sign <;> simp <;> omega

theorem expField_packSign (sign : Bool) {n : Nat} (h : n < 2 ^ 63) : expField (packSign sign n) = n / 2 ^ 52 := by
  unfold expField
  rw [BitVec.extractLsb'_toNat, toNat_packSign sign h, Nat.shiftRight_eq_div_pow]
  cases sign <;> simp <;> omega

theorem fracField_packSign (sign : Bool) {n : Nat} (h : n < 2 ^ 63) : fracField (packSign sign n) = n % 2 ^ 52 := by
  unfold fracField
  rw [BitVec.extractLsb'_toNat, toNat_packSign sign h, Nat.shiftRight_eq_div_pow]
  cases sign
  · simp
  · simp; omega

/-- A rounded magnitude is at most an infinity, so `fl` never yields a NaN (R113). -/
theorem roundedBits_le (n d : Nat) : roundedBits n d ≤ infinityBits := Nat.min_le_right _ _

theorem isNaN_fl (q : Rat) : isNaN (fl q) = false := by
  have h := roundedBits_le (q.num.natAbs * 2 ^ 1074) q.den
  have hlt : roundedBits (q.num.natAbs * 2 ^ 1074) q.den < 2 ^ 63 := by unfold infinityBits at h; omega
  unfold isNaN fl
  rw [expField_packSign _ hlt, fracField_packSign _ hlt]
  unfold infinityBits at h
  simp only [Bool.and_eq_false_iff, beq_eq_false_iff_ne, bne_eq_false_iff_eq]
  omega

/-- The number a finite pattern stands for, as its signed magnitude over 2^1074 (R112). -/
theorem value_eq (p : Double) :
    value p = ((if signBit p then -(magnitude p : Int) else (magnitude p : Int)) : Int) / (2 ^ 1074 : Nat) := by
  unfold value
  rw [Rat.mkRat_eq_div]

/-- A pattern's value is 0 exactly when its magnitude is. -/
theorem value_eq_zero_iff (p : Double) : value p = 0 ↔ magnitude p = 0 := by
  rw [value_eq, div_eq_zero_iff]
  have : ((2 ^ 1074 : Nat) : Rat) ≠ 0 := by positivity
  simp only [this, or_false, Int.cast_eq_zero]
  split_ifs <;> omega

end Sys2Proof.Machine
end

