-- ==== Sys2Proof/Laws/State.lean ====
section
/-! SUPPORT. One lemma per field per named update of the state, true by rfl, so that no later proof unfolds a record update. -/

namespace Sys2Proof.Machine

variable (s : State)

@[simp] theorem latchError_err (code : BitVec 3) (word : Word) : (s.latchError code word).err = true := rfl
@[simp] theorem latchError_tv (code : BitVec 3) (word : Word) : (s.latchError code word).tv = s.tv := rfl
@[simp] theorem latchError_errcode (code : BitVec 3) (word : Word) : (s.latchError code word).errcode = code := rfl
@[simp] theorem latchError_errcmd (code : BitVec 3) (word : Word) : (s.latchError code word).errcmd = word := rfl
@[simp] theorem latchError_src (code : BitVec 3) (word : Word) : (s.latchError code word).src = s.src := rfl
@[simp] theorem latchError_dst (code : BitVec 3) (word : Word) : (s.latchError code word).dst = s.dst := rfl
@[simp] theorem latchError_width (code : BitVec 3) (word : Word) : (s.latchError code word).width = s.width := rfl
@[simp] theorem latchError_height (code : BitVec 3) (word : Word) : (s.latchError code word).height = s.height := rfl
@[simp] theorem latchError_thresh (code : BitVec 3) (word : Word) : (s.latchError code word).thresh = s.thresh := rfl
@[simp] theorem latchError_gamma (code : BitVec 3) (word : Word) : (s.latchError code word).gamma = s.gamma := rfl
@[simp] theorem latchError_kernel (code : BitVec 3) (word : Word) : (s.latchError code word).kernel = s.kernel := rfl
@[simp] theorem latchError_mem (code : BitVec 3) (word : Word) : (s.latchError code word).mem = s.mem := rfl
@[simp] theorem latchError_memSize (code : BitVec 3) (word : Word) : (s.latchError code word).memSize = s.memSize := rfl
@[simp] theorem latchError_resets (code : BitVec 3) (word : Word) : (s.latchError code word).resets = s.resets := rfl
@[simp] theorem latchError_draws (code : BitVec 3) (word : Word) : (s.latchError code word).draws = s.draws := rfl
@[simp] theorem latchError_inputs (code : BitVec 3) (word : Word) : (s.latchError code word).inputs = s.inputs := rfl
@[simp] theorem latchError_replies (code : BitVec 3) (word : Word) : (s.latchError code word).replies = s.replies := rfl

@[simp] theorem clearLatch_err : (s.clearLatch).err = false := rfl
@[simp] theorem clearLatch_tv : (s.clearLatch).tv = s.tv := rfl
@[simp] theorem clearLatch_errcode : (s.clearLatch).errcode = 0 := rfl
@[simp] theorem clearLatch_errcmd : (s.clearLatch).errcmd = 0 := rfl
@[simp] theorem clearLatch_src : (s.clearLatch).src = s.src := rfl
@[simp] theorem clearLatch_dst : (s.clearLatch).dst = s.dst := rfl
@[simp] theorem clearLatch_width : (s.clearLatch).width = s.width := rfl
@[simp] theorem clearLatch_height : (s.clearLatch).height = s.height := rfl
@[simp] theorem clearLatch_thresh : (s.clearLatch).thresh = s.thresh := rfl
@[simp] theorem clearLatch_gamma : (s.clearLatch).gamma = s.gamma := rfl
@[simp] theorem clearLatch_kernel : (s.clearLatch).kernel = s.kernel := rfl
@[simp] theorem clearLatch_mem : (s.clearLatch).mem = s.mem := rfl
@[simp] theorem clearLatch_memSize : (s.clearLatch).memSize = s.memSize := rfl
@[simp] theorem clearLatch_resets : (s.clearLatch).resets = s.resets := rfl
@[simp] theorem clearLatch_draws : (s.clearLatch).draws = s.draws := rfl
@[simp] theorem clearLatch_inputs : (s.clearLatch).inputs = s.inputs := rfl
@[simp] theorem clearLatch_replies : (s.clearLatch).replies = s.replies := rfl

@[simp] theorem recordThreshold_err (t : Byte) : (s.recordThreshold t).err = s.err := rfl
@[simp] theorem recordThreshold_tv (t : Byte) : (s.recordThreshold t).tv = true := rfl
@[simp] theorem recordThreshold_errcode (t : Byte) : (s.recordThreshold t).errcode = s.errcode := rfl
@[simp] theorem recordThreshold_errcmd (t : Byte) : (s.recordThreshold t).errcmd = s.errcmd := rfl
@[simp] theorem recordThreshold_src (t : Byte) : (s.recordThreshold t).src = s.src := rfl
@[simp] theorem recordThreshold_dst (t : Byte) : (s.recordThreshold t).dst = s.dst := rfl
@[simp] theorem recordThreshold_width (t : Byte) : (s.recordThreshold t).width = s.width := rfl
@[simp] theorem recordThreshold_height (t : Byte) : (s.recordThreshold t).height = s.height := rfl
@[simp] theorem recordThreshold_thresh (t : Byte) : (s.recordThreshold t).thresh = t := rfl
@[simp] theorem recordThreshold_gamma (t : Byte) : (s.recordThreshold t).gamma = s.gamma := rfl
@[simp] theorem recordThreshold_kernel (t : Byte) : (s.recordThreshold t).kernel = s.kernel := rfl
@[simp] theorem recordThreshold_mem (t : Byte) : (s.recordThreshold t).mem = s.mem := rfl
@[simp] theorem recordThreshold_memSize (t : Byte) : (s.recordThreshold t).memSize = s.memSize := rfl
@[simp] theorem recordThreshold_resets (t : Byte) : (s.recordThreshold t).resets = s.resets := rfl
@[simp] theorem recordThreshold_draws (t : Byte) : (s.recordThreshold t).draws = s.draws := rfl
@[simp] theorem recordThreshold_inputs (t : Byte) : (s.recordThreshold t).inputs = s.inputs := rfl
@[simp] theorem recordThreshold_replies (t : Byte) : (s.recordThreshold t).replies = s.replies := rfl

@[simp] theorem writeBytes_err (a : Nat) (v : List Byte) : (s.writeBytes a v).err = s.err := rfl
@[simp] theorem writeBytes_tv (a : Nat) (v : List Byte) : (s.writeBytes a v).tv = s.tv := rfl
@[simp] theorem writeBytes_errcode (a : Nat) (v : List Byte) : (s.writeBytes a v).errcode = s.errcode := rfl
@[simp] theorem writeBytes_errcmd (a : Nat) (v : List Byte) : (s.writeBytes a v).errcmd = s.errcmd := rfl
@[simp] theorem writeBytes_src (a : Nat) (v : List Byte) : (s.writeBytes a v).src = s.src := rfl
@[simp] theorem writeBytes_dst (a : Nat) (v : List Byte) : (s.writeBytes a v).dst = s.dst := rfl
@[simp] theorem writeBytes_width (a : Nat) (v : List Byte) : (s.writeBytes a v).width = s.width := rfl
@[simp] theorem writeBytes_height (a : Nat) (v : List Byte) : (s.writeBytes a v).height = s.height := rfl
@[simp] theorem writeBytes_thresh (a : Nat) (v : List Byte) : (s.writeBytes a v).thresh = s.thresh := rfl
@[simp] theorem writeBytes_gamma (a : Nat) (v : List Byte) : (s.writeBytes a v).gamma = s.gamma := rfl
@[simp] theorem writeBytes_kernel (a : Nat) (v : List Byte) : (s.writeBytes a v).kernel = s.kernel := rfl
@[simp] theorem writeBytes_mem (a : Nat) (v : List Byte) : (s.writeBytes a v).mem = s.mem.writeAll a v := rfl
@[simp] theorem writeBytes_memSize (a : Nat) (v : List Byte) : (s.writeBytes a v).memSize = s.memSize := rfl
@[simp] theorem writeBytes_resets (a : Nat) (v : List Byte) : (s.writeBytes a v).resets = s.resets := rfl
@[simp] theorem writeBytes_draws (a : Nat) (v : List Byte) : (s.writeBytes a v).draws = s.draws := rfl
@[simp] theorem writeBytes_inputs (a : Nat) (v : List Byte) : (s.writeBytes a v).inputs = s.inputs := rfl
@[simp] theorem writeBytes_replies (a : Nat) (v : List Byte) : (s.writeBytes a v).replies = s.replies := rfl

@[simp] theorem reply_err (r : Reply) : (s.reply r).err = s.err := rfl
@[simp] theorem reply_tv (r : Reply) : (s.reply r).tv = s.tv := rfl
@[simp] theorem reply_errcode (r : Reply) : (s.reply r).errcode = s.errcode := rfl
@[simp] theorem reply_errcmd (r : Reply) : (s.reply r).errcmd = s.errcmd := rfl
@[simp] theorem reply_src (r : Reply) : (s.reply r).src = s.src := rfl
@[simp] theorem reply_dst (r : Reply) : (s.reply r).dst = s.dst := rfl
@[simp] theorem reply_width (r : Reply) : (s.reply r).width = s.width := rfl
@[simp] theorem reply_height (r : Reply) : (s.reply r).height = s.height := rfl
@[simp] theorem reply_thresh (r : Reply) : (s.reply r).thresh = s.thresh := rfl
@[simp] theorem reply_gamma (r : Reply) : (s.reply r).gamma = s.gamma := rfl
@[simp] theorem reply_kernel (r : Reply) : (s.reply r).kernel = s.kernel := rfl
@[simp] theorem reply_mem (r : Reply) : (s.reply r).mem = s.mem := rfl
@[simp] theorem reply_memSize (r : Reply) : (s.reply r).memSize = s.memSize := rfl
@[simp] theorem reply_resets (r : Reply) : (s.reply r).resets = s.resets := rfl
@[simp] theorem reply_draws (r : Reply) : (s.reply r).draws = s.draws := rfl
@[simp] theorem reply_inputs (r : Reply) : (s.reply r).inputs = s.inputs := rfl
@[simp] theorem reply_replies (r : Reply) : (s.reply r).replies = r :: s.replies := rfl

@[simp] theorem withInputs_err (ops : List Input) : (s.withInputs ops).err = s.err := rfl
@[simp] theorem withInputs_tv (ops : List Input) : (s.withInputs ops).tv = s.tv := rfl
@[simp] theorem withInputs_errcode (ops : List Input) : (s.withInputs ops).errcode = s.errcode := rfl
@[simp] theorem withInputs_errcmd (ops : List Input) : (s.withInputs ops).errcmd = s.errcmd := rfl
@[simp] theorem withInputs_src (ops : List Input) : (s.withInputs ops).src = s.src := rfl
@[simp] theorem withInputs_dst (ops : List Input) : (s.withInputs ops).dst = s.dst := rfl
@[simp] theorem withInputs_width (ops : List Input) : (s.withInputs ops).width = s.width := rfl
@[simp] theorem withInputs_height (ops : List Input) : (s.withInputs ops).height = s.height := rfl
@[simp] theorem withInputs_thresh (ops : List Input) : (s.withInputs ops).thresh = s.thresh := rfl
@[simp] theorem withInputs_gamma (ops : List Input) : (s.withInputs ops).gamma = s.gamma := rfl
@[simp] theorem withInputs_kernel (ops : List Input) : (s.withInputs ops).kernel = s.kernel := rfl
@[simp] theorem withInputs_mem (ops : List Input) : (s.withInputs ops).mem = s.mem := rfl
@[simp] theorem withInputs_memSize (ops : List Input) : (s.withInputs ops).memSize = s.memSize := rfl
@[simp] theorem withInputs_resets (ops : List Input) : (s.withInputs ops).resets = s.resets := rfl
@[simp] theorem withInputs_draws (ops : List Input) : (s.withInputs ops).draws = s.draws := rfl
@[simp] theorem withInputs_inputs (ops : List Input) : (s.withInputs ops).inputs = ops := rfl
@[simp] theorem withInputs_replies (ops : List Input) : (s.withInputs ops).replies = s.replies := rfl

@[simp] theorem refuse_err (cause : Cause) (c : Word) : (s.refuse cause c).err = true := rfl
@[simp] theorem refuse_tv (cause : Cause) (c : Word) : (s.refuse cause c).tv = s.tv := rfl
@[simp] theorem refuse_errcode (cause : Cause) (c : Word) : (s.refuse cause c).errcode = cause.code := rfl
@[simp] theorem refuse_errcmd (cause : Cause) (c : Word) : (s.refuse cause c).errcmd = c := rfl
@[simp] theorem refuse_src (cause : Cause) (c : Word) : (s.refuse cause c).src = s.src := rfl
@[simp] theorem refuse_dst (cause : Cause) (c : Word) : (s.refuse cause c).dst = s.dst := rfl
@[simp] theorem refuse_width (cause : Cause) (c : Word) : (s.refuse cause c).width = s.width := rfl
@[simp] theorem refuse_height (cause : Cause) (c : Word) : (s.refuse cause c).height = s.height := rfl
@[simp] theorem refuse_thresh (cause : Cause) (c : Word) : (s.refuse cause c).thresh = s.thresh := rfl
@[simp] theorem refuse_gamma (cause : Cause) (c : Word) : (s.refuse cause c).gamma = s.gamma := rfl
@[simp] theorem refuse_kernel (cause : Cause) (c : Word) : (s.refuse cause c).kernel = s.kernel := rfl
@[simp] theorem refuse_mem (cause : Cause) (c : Word) : (s.refuse cause c).mem = s.mem := rfl
@[simp] theorem refuse_memSize (cause : Cause) (c : Word) : (s.refuse cause c).memSize = s.memSize := rfl
@[simp] theorem refuse_resets (cause : Cause) (c : Word) : (s.refuse cause c).resets = s.resets := rfl
@[simp] theorem refuse_draws (cause : Cause) (c : Word) : (s.refuse cause c).draws = s.draws := rfl
@[simp] theorem refuse_inputs (cause : Cause) (c : Word) : (s.refuse cause c).inputs = s.inputs := rfl
@[simp] theorem refuse_replies (cause : Cause) (c : Word) : (s.refuse cause c).replies = s.replies := rfl

@[simp] theorem platformReset_err : (s.platformReset).err = false := rfl
@[simp] theorem platformReset_tv : (s.platformReset).tv = false := rfl
@[simp] theorem platformReset_errcode : (s.platformReset).errcode = 0 := rfl
@[simp] theorem platformReset_errcmd : (s.platformReset).errcmd = 0 := rfl
@[simp] theorem platformReset_src : (s.platformReset).src = 0 := rfl
@[simp] theorem platformReset_dst : (s.platformReset).dst = 0 := rfl
@[simp] theorem platformReset_width : (s.platformReset).width = 0 := rfl
@[simp] theorem platformReset_height : (s.platformReset).height = 0 := rfl
@[simp] theorem platformReset_thresh : (s.platformReset).thresh = 0 := rfl
@[simp] theorem platformReset_gamma : (s.platformReset).gamma = Reg64.zero := rfl
@[simp] theorem platformReset_kernel : (s.platformReset).kernel = Kernel.zero := rfl
@[simp] theorem platformReset_mem : (s.platformReset).mem = [] := rfl
@[simp] theorem platformReset_memSize : (s.platformReset).memSize = s.memSize := rfl
@[simp] theorem platformReset_resets : (s.platformReset).resets = s.resets + 1 := rfl
@[simp] theorem platformReset_draws : (s.platformReset).draws = s.draws := rfl
@[simp] theorem platformReset_inputs : (s.platformReset).inputs = s.inputs := rfl
@[simp] theorem platformReset_replies : (s.platformReset).replies = s.replies := rfl

end Sys2Proof.Machine
end

