-- ==== Sys2Proof/Laws/Memory.lean ====
section
/-! SUPPORT. The laws of pixel memory: a write is read back and leaves every other address alone (R65), and every operation
keeps the canonical form. -/

namespace Sys2Proof.Machine

/-! ### The list of written bytes -/

@[simp] theorem lookup_nil (x : Nat) : Memory.lookup [] x = none := rfl

theorem lookup_cons (a : Nat) (b : Byte) (m : Memory) (x : Nat) :
    Memory.lookup ((a, b) :: m) x = if x = a then some b else Memory.lookup m x := rfl

/-- One write: the written address reads as the byte, every other as before. -/
theorem lookup_write (m : Memory) (x y : Nat) (v : Byte) :
    (m.write x v).lookup y = if y = x then some v else m.lookup y := by
  induction m with
  | nil => rfl
  | cons c m ih =>
    obtain ⟨a, b⟩ := c
    rw [Memory.write]
    by_cases hlt : x < a
    · rw [if_pos hlt, lookup_cons]
    · rw [if_neg hlt]
      by_cases heq : x = a
      · subst heq
        rw [if_pos rfl, lookup_cons, lookup_cons]
        split_ifs <;> rfl
      · rw [if_neg heq, lookup_cons, lookup_cons, ih]
        by_cases hy : y = x
        · subst hy; simp [heq]
        · simp [hy]

/-- A write of several bytes, lowest address first. -/
theorem lookup_writeAll (m : Memory) (a : Nat) (v : List Byte) (x : Nat) :
    (m.writeAll a v).lookup x = if a ≤ x ∧ x < a + v.length then v[x - a]? else m.lookup x := by
  induction v generalizing m a with
  | nil => simp [Memory.writeAll]
  | cons b bs ih =>
    rw [Memory.writeAll, ih, lookup_write]
    rcases Nat.lt_trichotomy x a with h | h | h
    · rw [if_neg (by omega), if_neg (by omega), if_neg (by omega)]
    · subst h; simp
    · by_cases hb : x < a + (bs.length + 1)
      · rw [if_pos (by omega), if_pos (by rw [List.length_cons]; omega), show x - a = (x - (a + 1)) + 1 by omega]
        simp
      · rw [if_neg (by omega), if_neg (by omega), if_neg (by rw [List.length_cons]; omega)]

/-! ### The canonical form -/

theorem risesAbove_write {a x : Nat} {m : Memory} (v : Byte) (hx : a < x) (h : Memory.risesAbove a m = true) :
    Memory.risesAbove a (m.write x v) = true := by
  induction m generalizing a with
  | nil => simp [Memory.write, Memory.risesAbove, hx]
  | cons c m ih =>
    obtain ⟨y, b⟩ := c
    simp only [Memory.risesAbove, Bool.and_eq_true, decide_eq_true_eq] at h
    simp only [Memory.write]
    split_ifs with hlt heq
    · simp [Memory.risesAbove, hx, hlt, h.2]
    · simp [Memory.risesAbove, h.1, h.2]
    · simp [Memory.risesAbove, h.1, ih (by omega) h.2]

/-- A write keeps the canonical form. -/
theorem wf_write {m : Memory} (x : Nat) (v : Byte) (h : m.wf = true) : (m.write x v).wf = true := by
  cases m with
  | nil => rfl
  | cons c m =>
    obtain ⟨y, b⟩ := c
    simp only [Memory.wf] at h
    simp only [Memory.write]
    split_ifs with hlt heq
    · simp [Memory.wf, Memory.risesAbove, hlt, h]
    · simpa [Memory.wf] using h
    · exact risesAbove_write v (by omega) h

/-- A write of several bytes keeps the canonical form. -/
theorem wf_writeAll {m : Memory} (a : Nat) (v : List Byte) (h : m.wf = true) : (m.writeAll a v).wf = true := by
  induction v generalizing m a with
  | nil => exact h
  | cons b bs ih => exact ih (a + 1) (wf_write a b h)

/-- A write lists no address but the old ones and its own. -/
theorem mem_write {m : Memory} {x : Nat} {v : Byte} {c : Host.Cell} (h : c ∈ m.write x v) : c ∈ m ∨ c.1 = x := by
  induction m with
  | nil => simp only [Memory.write, List.mem_singleton] at h; exact .inr (by rw [h])
  | cons d m ih =>
    obtain ⟨y, b⟩ := d
    simp only [Memory.write] at h
    split_ifs at h with hlt heq
    · rcases List.mem_cons.mp h with rfl | h
      · exact .inr rfl
      · exact .inl h
    · rcases List.mem_cons.mp h with rfl | h
      · exact .inr heq.symm
      · exact .inl (List.mem_cons_of_mem _ h)
    · rcases List.mem_cons.mp h with rfl | h
      · exact .inl (List.mem_cons_self ..)
      · exact (ih h).imp (List.mem_cons_of_mem _) id

/-- A write of several bytes below a bound keeps every listed address below it. -/
theorem inside_writeAll {m : Memory} {a n : Nat} {v : List Byte} (hv : a + v.length ≤ n) (h : ∀ c ∈ m, c.1 < n) :
    ∀ c ∈ m.writeAll a v, c.1 < n := by
  induction v generalizing m a with
  | nil => exact h
  | cons b bs ih =>
    refine ih (by simp at hv; omega) fun c hc => ?_
    rcases mem_write hc with hc | hc
    · exact h c hc
    · simp at hv; omega

/-! ### Reads and writes of a state -/

/-- A read takes only the written bytes and the number of resets from the state. -/
theorem readByte_congr {s t : State} (hm : t.mem = s.mem) (hr : t.resets = s.resets) (x : Nat) :
    t.readByte x = s.readByte x := by
  unfold State.readByte State.unwrittenByte
  rw [hm, hr]

/-- What a `MemWrite` does to every address (R65). -/
theorem readByte_writeBytes (s : State) (a : Nat) (v : List Byte) (x : Nat) :
    (s.writeBytes a v).readByte x
      = if a ≤ x ∧ x < a + v.length then (v[x - a]?).getD (s.readByte x) else s.readByte x := by
  unfold State.readByte
  rw [writeBytes_mem, lookup_writeAll]
  split_ifs with h
  · have : x - a < v.length := by omega
    simp [this]
  · rfl

/-- Outside the bytes written, memory reads as before (R65). -/
theorem readByte_writeBytes_outside {s : State} {a x : Nat} {v : List Byte} (h : x < a ∨ a + v.length ≤ x) :
    (s.writeBytes a v).readByte x = s.readByte x := by
  rw [readByte_writeBytes, if_neg (by omega)]

/-- The i-th byte written is read back (R65). -/
theorem readByte_writeBytes_inside {s : State} {a i : Nat} {v : List Byte} (h : i < v.length) :
    (s.writeBytes a v).readByte (a + i) = v[i] := by
  rw [readByte_writeBytes, if_pos (by omega), Nat.add_sub_cancel_left]
  simp [h]

@[simp] theorem length_readBytes (s : State) (a n : Nat) : (s.readBytes a n).length = n := by
  simp [State.readBytes]

@[simp] theorem getElem_readBytes (s : State) (a n i : Nat) (h : i < (s.readBytes a n).length) :
    (s.readBytes a n)[i] = s.readByte (a + i) := by
  simp [State.readBytes]

end Sys2Proof.Machine
end

