-- ==== Sys2Proof/Laws/Ops.lean ====
section
/-! SUPPORT. What the shared operations of the commands can do, said once: acceptance, the frame of a command, the write of a
destination, and the outcomes of `exec`. -/

namespace Sys2Proof.Machine

/-! ### The parameter check -/

/-- Bits 62:0 of a pattern are its exponent field and its fraction. -/
theorem low_bits_eq_zero (g : Double) : g.extractLsb' 0 63 = 0 ↔ expField g = 0 ∧ fracField g = 0 := by
  unfold expField fracField
  rw [← BitVec.toNat_inj]
  simp only [BitVec.extractLsb'_toNat, Nat.shiftRight_eq_div_pow]
  have := g.isLt
  simp
  omega

theorem legalGamma_iff (g : Double) :
    legalGamma g = true ↔ g.getLsbD 63 = false ∧ g.extractLsb' 52 11 ≠ 2047 ∧ g.extractLsb' 0 63 ≠ 0 := by
  have he : g.extractLsb' 52 11 = 2047 ↔ expField g = 2047 := by
    unfold expField; rw [← BitVec.toNat_inj]; simp
  have hz : isZero g = false ↔ g.extractLsb' 0 63 ≠ 0 := by
    rw [ne_eq, low_bits_eq_zero]; unfold isZero; simp
  rw [← hz, ne_eq, he]
  unfold legalGamma signBit
  simp [and_assoc]

theorem legalWeight_iff (w : Double) : legalWeight w = true ↔ w.extractLsb' 52 11 < 2023 := by
  unfold legalWeight expField
  rw [decide_eq_true_iff, BitVec.lt_def]
  simp; omega

/-- The check of R232 on the patterns is the check on the bits of the registers. -/
theorem badParameter_eq_false_iff (i : Instr) (s : State) : s.badParameter i = false ↔ parametersLegal i s := by
  cases i <;> simp only [State.badParameter, parametersLegal, Bool.not_eq_false']
  · exact legalGamma_iff _
  · simp only [Kernel.weights, List.all_map, List.all_eq_true, Function.comp, legalWeight_iff, Reg64.double]

/-! ### Acceptance -/

theorem rangesOverlap_eq_false_iff (i : Instr) (s : State) :
    s.rangesOverlap i = false ↔ disjointRanges s.src.toNat (s.sourceSize i) s.dst.toNat s.pixelCount := by
  unfold State.rangesOverlap
  simp only [Bool.and_eq_false_iff, decide_eq_false_iff_not]
  omega

theorem aliasesWrongly_eq_false_iff (i : Instr) (s : State) :
    s.aliasesWrongly i = false ↔ disjointRanges s.src.toNat (s.sourceSize i) s.dst.toNat s.pixelCount
      ∨ (commandClass i = .point ∧ s.dst = s.src) := by
  rw [← rangesOverlap_eq_false_iff]
  unfold State.aliasesWrongly
  cases commandClass i <;> cases s.rangesOverlap i <;> simp

/-- The acceptance checks pass exactly under the conditions of `Accepts`. -/
theorem acceptance_eq_accepted_iff (i : Instr) (s : State) : acceptance i s = .accepted ↔ Accepts i s := by
  constructor
  · intro h
    unfold acceptance at h
    split_ifs at h with h1 h2 h3 h4 h5 h6
    simp only [not_or, Bool.not_eq_true] at h1 h2 h5 h6
    exact ⟨h1, h2.1, h2.2, by omega, by omega, (aliasesWrongly_eq_false_iff i s).mp h5,
      (badParameter_eq_false_iff i s).mp h6⟩
  · intro h
    have h5 := (aliasesWrongly_eq_false_iff i s).mpr h.aliasing
    have h6 := (badParameter_eq_false_iff i s).mpr h.parameters
    have h3 := h.source
    have h4 := h.destination
    unfold acceptance
    rw [if_neg (by simp [h.notLatched]), if_neg (not_or.mpr ⟨h.width, h.height⟩), if_neg (by omega), if_neg (by omega),
      if_neg (by simp [h5]), if_neg (by simp [h6])]

theorem acceptance_eq_ignored_iff (i : Instr) (s : State) : acceptance i s = .ignored ↔ s.err = true := by
  unfold acceptance
  split_ifs <;> simp_all

/-- No command is refused with cause ILLEGAL, and only GAMMA and CONV3 with cause PARAM (R226). -/
theorem acceptance_cause {i : Instr} {s : State} {c : Cause} (h : acceptance i s = .refused c) :
    c.agreesWith (encode i) := by
  have hd : decode (encode i) = .ok i := by cases i <;> rfl
  unfold acceptance at h
  split_ifs at h with h1 h2 h3 h4 h5 h6 <;> cases h
  all_goals try exact ⟨i, hd⟩
  cases i <;> simp [State.badParameter] at h6
  · exact .inl hd
  · exact .inr hd

/-! ### The frame of a command and the write of its destination -/

theorem command_accepted {i : Instr} {s : State} (h : Accepts i s) (f : State → Host.Outcome State Fault Refusal) :
    command i f s = f s := by
  unfold command
  rw [(acceptance_eq_accepted_iff i s).mpr h]

/-- Once accepted, a command writes its N destination bytes (R61). -/
theorem produce_accepted {i : Instr} {s : State} (h : Accepts i s) (pixel : Nat → Byte) :
    produce i pixel s = .next (s.writeBytes s.dst.toNat ((List.range s.pixelCount).map pixel)) :=
  if_pos ⟨h.source, h.destination⟩

/-- Acceptance looks at neither THRESH nor TV. -/
theorem Accepts.recordThreshold {i : Instr} {s : State} (h : Accepts i s) (t : Byte) :
    Accepts i (s.recordThreshold t) :=
  ⟨h.notLatched, h.width, h.height, h.source, h.destination, h.aliasing, by
    have := h.parameters; cases i <;> exact this⟩

/-- Destination pixel p, after the destination of an n-pixel image is written (R66). -/
theorem readByte_destination {s : State} {a n p : Nat} (pixel : Nat → Byte) (h : p < n) :
    (s.writeBytes a ((List.range n).map pixel)).readByte (a + p) = pixel p := by
  rw [readByte_writeBytes_inside (by simpa using h)]
  simp

/-- Every byte outside the destination, after an n-pixel image is written. -/
theorem readByte_outside_destination {s : State} {a n x : Nat} (pixel : Nat → Byte) (h : x < a ∨ a + n ≤ x) :
    (s.writeBytes a ((List.range n).map pixel)).readByte x = s.readByte x :=
  readByte_writeBytes_outside (by simpa using h)

/-- The three outcomes of a command (R212). -/
theorem command_cases (i : Instr) (f : State → Host.Outcome State Fault Refusal) (s : State) :
    (s.err = true ∧ command i f s = .next s)
    ∨ (∃ c, s.err = false ∧ acceptance i s = .refused c ∧ command i f s = .next (s.refuse c (encode i)))
    ∨ (Accepts i s ∧ command i f s = f s) := by
  cases h : acceptance i s with
  | ignored => exact .inl ⟨(acceptance_eq_ignored_iff i s).mp h, by unfold command; rw [h]⟩
  | refused c =>
    refine .inr (.inl ⟨c, ?_, rfl, by unfold command; rw [h]⟩)
    cases he : s.err with
    | false => rfl
    | true => rw [(acceptance_eq_ignored_iff i s).mpr he] at h; cases h
  | accepted =>
    have ha := (acceptance_eq_accepted_iff i s).mp h
    exact .inr (.inr ⟨ha, command_accepted ha f⟩)

/-- What an executed command leaves: its destination written, and for OTSU also THRESH and TV (R212). -/
inductive Executed (i : Instr) (s : State) : State → Prop where
  | image (pixel : Nat → Byte) (h : i ≠ .otsu) :
    Executed i s (s.writeBytes s.dst.toNat ((List.range s.pixelCount).map pixel))
  | cut (pixel : Nat → Byte) (h : i = .otsu) :
    Executed i s ((s.recordThreshold (BitVec.ofNat 8 (cutValue (histogram s.sourceSamples) s.pixelCount))).writeBytes
      s.dst.toNat ((List.range s.pixelCount).map pixel))

/-- Every command stands in the frame of R98. -/
theorem exec_eq_command (i : Instr) (s : State) : ∃ f, exec i s = command i f s := by
  cases i
  case gray => unfold exec execGray; exact ⟨_, rfl⟩
  case grayfx => unfold exec execGrayfx; exact ⟨_, rfl⟩
  case histeq => unfold exec execHisteq; exact ⟨_, rfl⟩
  case gamma => unfold exec execGamma; exact ⟨_, rfl⟩
  case conv3 => unfold exec execConv3; exact ⟨_, rfl⟩
  case mean3 => unfold exec execMean3; exact ⟨_, rfl⟩
  case otsu => unfold exec execOtsu; exact ⟨_, rfl⟩

/-! ### What each command writes once accepted -/

/-- GRAY, accepted (R141). -/
theorem exec_gray_accepted {s : State} (h : Accepts .gray s) :
    exec .gray s
      = .next (s.writeBytes s.dst.toNat ((List.range s.pixelCount).map (s.reducedPixel grayPixel))) := by
  unfold exec execGray
  rw [command_accepted h, produce_accepted h]

/-- GRAYFX, accepted (R143). -/
theorem exec_grayfx_accepted {s : State} (h : Accepts .grayfx s) :
    exec .grayfx s
      = .next (s.writeBytes s.dst.toNat ((List.range s.pixelCount).map (s.reducedPixel grayfxPixel))) := by
  unfold exec execGrayfx
  rw [command_accepted h, produce_accepted h]

/-- HISTEQ, accepted (R155). -/
theorem exec_histeq_accepted {s : State} (h : Accepts .histeq s) :
    exec .histeq s
      = .next (s.writeBytes s.dst.toNat ((List.range s.pixelCount).map fun p =>
          equalizedSample (histogram s.sourceSamples) s.pixelCount (s.sourceByte p))) := by
  unfold exec execHisteq
  rw [command_accepted h, produce_accepted h]

/-- GAMMA, accepted (R170). -/
theorem exec_gamma_accepted {s : State} (h : Accepts .gamma s) :
    exec .gamma s
      = .next (s.writeBytes s.dst.toNat ((List.range s.pixelCount).map fun p =>
          gammaEntry pow s.gamma.double (s.sourceByte p).toNat)) := by
  unfold exec execGamma
  rw [command_accepted h, produce_accepted h]

/-- CONV3, accepted (R180). -/
theorem exec_conv3_accepted {s : State} (h : Accepts .conv3 s) :
    exec .conv3 s
      = .next (s.writeBytes s.dst.toNat ((List.range s.pixelCount).map fun p =>
          clampRound (convolve s.kernel.weights (s.sourceNeighbourhood p)))) := by
  unfold exec execConv3
  rw [command_accepted h, produce_accepted h]

/-- MEAN3, accepted (R182). -/
theorem exec_mean3_accepted {s : State} (h : Accepts .mean3 s) :
    exec .mean3 s
      = .next (s.writeBytes s.dst.toNat ((List.range s.pixelCount).map fun p => mean (s.sourceNeighbourhood p))) := by
  unfold exec execMean3
  rw [command_accepted h, produce_accepted h]

/-- OTSU, accepted (R195). -/
theorem exec_otsu_accepted {s : State} (h : Accepts .otsu s) :
    exec .otsu s
      = .next ((s.recordThreshold (BitVec.ofNat 8 (cutValue (histogram s.sourceSamples) s.pixelCount))).writeBytes
          s.dst.toNat ((List.range s.pixelCount).map fun p =>
            binarized (cutValue (histogram s.sourceSamples) s.pixelCount) (s.sourceByte p))) := by
  unfold exec execOtsu
  rw [command_accepted h]
  exact produce_accepted (h.recordThreshold _) _

/-- An accepted command is executed (R61, R98 step 8). -/
theorem exec_accepted {i : Instr} {s : State} (h : Accepts i s) : ∃ t, exec i s = .next t ∧ Executed i s t := by
  cases i
  · exact ⟨_, exec_gray_accepted h, .image _ nofun⟩
  · exact ⟨_, exec_grayfx_accepted h, .image _ nofun⟩
  · exact ⟨_, exec_histeq_accepted h, .image _ nofun⟩
  · exact ⟨_, exec_gamma_accepted h, .image _ nofun⟩
  · exact ⟨_, exec_conv3_accepted h, .image _ nofun⟩
  · exact ⟨_, exec_mean3_accepted h, .image _ nofun⟩
  · exact ⟨_, exec_otsu_accepted h, .cut _ rfl⟩

/-- Everything a command can do: it always goes on, ignored, refused or executed (R212, R261). -/
theorem exec_cases (i : Instr) (s : State) :
    (s.err = true ∧ exec i s = .next s)
    ∨ (∃ c, s.err = false ∧ acceptance i s = .refused c ∧ exec i s = .next (s.refuse c (encode i)))
    ∨ (Accepts i s ∧ ∃ t, exec i s = .next t ∧ Executed i s t) := by
  obtain ⟨f, hf⟩ := exec_eq_command i s
  rcases command_cases i f s with h | ⟨c, h⟩ | ⟨h, -⟩
  · exact .inl ⟨h.1, hf.trans h.2⟩
  · exact .inr (.inl ⟨c, h.1, h.2.1, hf.trans h.2.2⟩)
  · exact .inr (.inr ⟨h, exec_accepted h⟩)

/-! ### Steps -/

theorem step_of_nil {s : State} (h : s.inputs = []) : step s = .next s := by
  unfold step nextOperation
  rw [h]

theorem step_of_cons {s : State} {op : Input} {rest : List Input} (h : s.inputs = op :: rest) :
    step s = hostStep op (s.withInputs rest) := by
  unfold step nextOperation
  rw [h]

end Sys2Proof.Machine
end

