-- ==== Sys2Proof/Laws/PerInstr.lean ====
section
/-! SUPPORT. Families of lemmas with one lemma per constructor of Instr. -/

namespace Sys2Proof.Laws

/-- A command is well formed, its word has ZERO = 0, and the decoder reads the command back from its word (R90, R91). -/
def EncodingRoundTrip.Statement (i : Instr) : Prop :=
  i.wf = true ∧ zeroField (encode i) = 0 ∧ decode (encode i) = .ok i

theorem EncodingRoundTrip.gray : EncodingRoundTrip.Statement .gray := ⟨rfl, rfl, rfl⟩
theorem EncodingRoundTrip.grayfx : EncodingRoundTrip.Statement .grayfx := ⟨rfl, rfl, rfl⟩
theorem EncodingRoundTrip.histeq : EncodingRoundTrip.Statement .histeq := ⟨rfl, rfl, rfl⟩
theorem EncodingRoundTrip.gamma : EncodingRoundTrip.Statement .gamma := ⟨rfl, rfl, rfl⟩
theorem EncodingRoundTrip.conv3 : EncodingRoundTrip.Statement .conv3 := ⟨rfl, rfl, rfl⟩
theorem EncodingRoundTrip.mean3 : EncodingRoundTrip.Statement .mean3 := ⟨rfl, rfl, rfl⟩
theorem EncodingRoundTrip.otsu : EncodingRoundTrip.Statement .otsu := ⟨rfl, rfl, rfl⟩

end Sys2Proof.Laws
end

