-- ==== Sys2Proof/Laws/Pow.lean ====
section
/-! SUPPORT. What the exact comparisons with a real power decide, what bisection finds, and that the truncated power meets
POW-RANGE and POW-ACC. -/

namespace Sys2Proof.Machine

/-- A legal exponent stands for a positive number (R170). -/
theorem value_pos_of_legalGamma {g : Double} (h : legalGamma g = true) : 0 < value g := by
  unfold legalGamma at h
  simp only [Bool.and_eq_true, Bool.not_eq_true', bne_iff_ne, ne_eq] at h
  obtain ⟨⟨hs, -⟩, hz⟩ := h
  have hm : 0 < magnitude g := by
    unfold magnitude
    unfold isZero at hz
    split
    · simp_all; omega
    · positivity
  rw [value_eq, hs]
  have : (0 : Rat) < (magnitude g : Int) := by exact_mod_cast hm
  simp only [Bool.false_eq_true, if_false]
  positivity

theorem isPowCall_powOperand {i : Nat} (hi : i ≤ 255) {g : Double} (hg : legalGamma g = true) :
    isPowCall (powOperand i) g = true := by
  unfold isPowCall
  rw [hg, Bool.true_and, List.any_eq_true]
  exact ⟨i, List.mem_range.mpr (by omega), by simp⟩

/-- The n-th power of the real power with exponent m/n is the m-th power. -/
theorem realPower_pow_den {x g : Rat} (hx : 0 ≤ x) (hg : 0 < g) :
    ((x : Real) ^ (g : Real)) ^ g.den = ((x ^ g.num.toNat : Rat) : Real) := by
  have hd : (g.den : Real) ≠ 0 := by exact_mod_cast g.den_nz
  have hn : ((g.num.toNat : Nat) : Real) = (g : Real) * g.den := by
    have h : ((g.num.toNat : Nat) : Int) = g.num := Int.toNat_of_nonneg (Rat.num_nonneg.mpr hg.le)
    have h' : ((g.num.toNat : Nat) : Real) = (g.num : Real) := by exact_mod_cast h
    rw [h', Rat.cast_def g, div_mul_cancel₀ _ hd]
  have hx' : (0 : Real) ≤ (x : Real) := by exact_mod_cast hx
  rw [← Real.rpow_natCast, ← Real.rpow_mul hx', ← hn, Real.rpow_natCast, Rat.cast_pow]

/-- `leRealPower` decides r ≤ x^g over the reals. -/
theorem leRealPower_iff {r x g : Rat} (hx : 0 ≤ x) (hg : 0 < g) :
    leRealPower r x g = true ↔ (r : Real) ≤ (x : Real) ^ (g : Real) := by
  have hp : (0 : Real) ≤ (x : Real) ^ (g : Real) := Real.rpow_nonneg (by exact_mod_cast hx) _
  unfold leRealPower
  rw [decide_eq_true_iff]
  by_cases hr : r ≤ 0
  · have : (r : Real) ≤ 0 := by exact_mod_cast hr
    simp only [hr, true_or, true_iff]
    linarith
  · have hr' : (0 : Real) ≤ (r : Real) := by exact_mod_cast (not_le.mp hr).le
    rw [← pow_le_pow_iff_left₀ hr' hp g.den_nz, realPower_pow_den hx hg, ← Rat.cast_pow, Rat.cast_le]
    simp [hr]

/-- `realPowerLe` decides x^g ≤ r over the reals. -/
theorem realPowerLe_iff {r x g : Rat} (hx : 0 ≤ x) (hg : 0 < g) :
    realPowerLe x g r = true ↔ (x : Real) ^ (g : Real) ≤ (r : Real) := by
  have hp : (0 : Real) ≤ (x : Real) ^ (g : Real) := Real.rpow_nonneg (by exact_mod_cast hx) _
  unfold realPowerLe
  rw [decide_eq_true_iff]
  by_cases hr : 0 ≤ r
  · have hr' : (0 : Real) ≤ (r : Real) := by exact_mod_cast hr
    rw [← pow_le_pow_iff_left₀ hp hr' g.den_nz, realPower_pow_den hx hg, ← Rat.cast_pow, Rat.cast_le]
    simp [hr]
  · have : (r : Real) < 0 := by exact_mod_cast not_le.mp hr
    simp only [hr, false_and, false_iff, not_le]
    linarith

/-- `isAccuratePower` decides the bound of POW-ACC (R123). -/
theorem isAccuratePower_iff {x g : Double} (hx : 0 ≤ value x) (hg : 0 < value g) (p : Double) :
    isAccuratePower x g p = true
      ↔ |((value p : Rat) : Real) - ((value x : Rat) : Real) ^ ((value g : Rat) : Real)| ≤ (1 : Real) / 2 ^ 40 := by
  unfold isAccuratePower
  rw [Bool.and_eq_true, leRealPower_iff hx hg, realPowerLe_iff hx hg, abs_le]
  push_cast
  constructor <;> rintro ⟨h1, h2⟩ <;> constructor <;> linarith

/-- Bisection ends at a number that passes and whose successor does not. -/
theorem bisect_spec (test : Nat → Bool) :
    ∀ bits n, test n = true → test (n + 2 ^ bits) = false →
      let r := bisect test bits n
      test r = true ∧ test (r + 1) = false ∧ n ≤ r ∧ r < n + 2 ^ bits
  | 0, n, h, h' => ⟨h, h', le_rfl, by simp [bisect]⟩
  | b + 1, n, h, h' => by
    unfold bisect
    split
    · rename_i hm
      obtain ⟨h1, h2, h3, h4⟩ := bisect_spec test b (n + 2 ^ b) hm (by rw [add_assoc, ← two_mul, ← pow_succ']; exact h')
      exact ⟨h1, h2, by omega, by rw [pow_succ]; omega⟩
    · rename_i hm
      obtain ⟨h1, h2, h3, h4⟩ := bisect_spec test b n h (by simpa using hm)
      exact ⟨h1, h2, h3, by rw [pow_succ]; omega⟩

/-- The truncated power is at most the real power, the next pattern is above it, and both are patterns of numbers in [0, 2]. -/
theorem truncatedPower_spec {x g : Double} (hx0 : 0 ≤ value x) (hx1 : value x ≤ 1) (hg : 0 < value g) :
    ∃ n : Nat, truncatedPower x g = BitVec.ofNat 64 n ∧ n < 2 ^ 62
      ∧ ((value (BitVec.ofNat 64 n) : Rat) : Real) ≤ ((value x : Rat) : Real) ^ ((value g : Rat) : Real)
      ∧ ((value x : Rat) : Real) ^ ((value g : Rat) : Real) < ((value (BitVec.ofNat 64 (n + 1)) : Rat) : Real) := by
  have hzero : value (BitVec.ofNat 64 0) = 0 := by decide +kernel
  have htwo : value (BitVec.ofNat 64 (0 + 2 ^ 62)) = 2 := by decide +kernel
  have hlow : leRealPower (value (BitVec.ofNat 64 0)) (value x) (value g) = true := by
    rw [hzero]; simp [leRealPower]
  have hhigh : leRealPower (value (BitVec.ofNat 64 (0 + 2 ^ 62))) (value x) (value g) = false := by
    rw [htwo, Bool.eq_false_iff, ne_eq, leRealPower_iff hx0 hg, not_le]
    have : ((value x : Rat) : Real) ^ ((value g : Rat) : Real) ≤ 1 :=
      Real.rpow_le_one (by exact_mod_cast hx0) (by exact_mod_cast hx1) (by exact_mod_cast hg.le)
    push_cast
    linarith
  obtain ⟨h1, h2, -, h4⟩ := bisect_spec (fun n => leRealPower (value (BitVec.ofNat 64 n)) (value x) (value g)) 62 0 hlow hhigh
  unfold truncatedPower
  generalize bisect _ 62 0 = n at h1 h2 h4 ⊢
  rw [Bool.eq_false_iff, ne_eq, leRealPower_iff hx0 hg, not_le] at h2
  exact ⟨n, rfl, by rwa [Nat.zero_add] at h4, (leRealPower_iff hx0 hg).mp h1, h2⟩

/-- The fields of the pattern with a given number, sign 0. -/
theorem fields_ofNat {n : Nat} (hn : n < 2 ^ 63) :
    signBit (BitVec.ofNat 64 n) = false ∧ expField (BitVec.ofNat 64 n) = n / 2 ^ 52
      ∧ fracField (BitVec.ofNat 64 n) = n % 2 ^ 52 := by
  have h : BitVec.ofNat 64 n = packSign false n := by unfold packSign; simp
  rw [h]
  exact ⟨signBit_packSign _ hn, expField_packSign _ hn, fracField_packSign _ hn⟩

/-- From one pattern below 2.0 to the next the magnitude grows by at most 2^1022. -/
theorem magnitude_succ_le {n : Nat} (hn : n < 2 ^ 62) :
    magnitude (BitVec.ofNat 64 (n + 1)) ≤ magnitude (BitVec.ofNat 64 n) + 2 ^ 1022 := by
  obtain ⟨-, he, hf⟩ := fields_ofNat (n := n) (by omega)
  obtain ⟨-, he', hf'⟩ := fields_ofNat (n := n + 1) (by omega)
  unfold magnitude
  rw [he, hf, he', hf']
  have hE : n / 2 ^ 52 ≤ 1023 := by omega
  generalize hEE : n / 2 ^ 52 = E at *
  generalize hFF : n % 2 ^ 52 = F at *
  have hp : 2 ^ (E - 1) ≤ 2 ^ 1022 := pow_le_pow_right₀ one_le_two (by omega)
  have hone : 0 < 2 ^ (E - 1) := Nat.two_pow_pos _
  by_cases hc : F + 1 < 2 ^ 52
  · rw [show (n + 1) / 2 ^ 52 = E by omega, show (n + 1) % 2 ^ 52 = F + 1 by omega]
    split
    · omega
    · generalize 2 ^ 1022 = P at *
      generalize 2 ^ (E - 1) = Q at *
      nlinarith
  · rw [show (n + 1) / 2 ^ 52 = E + 1 by omega, show (n + 1) % 2 ^ 52 = 0 by omega, show F = 2 ^ 52 - 1 by omega,
      if_neg (by omega), Nat.add_sub_cancel]
    split
    · rename_i h0
      subst h0
      generalize 2 ^ 1022 = P at *
      norm_num
      omega
    · rw [show 2 ^ E = 2 * 2 ^ (E - 1) by rw [← pow_succ']; congr 1; omega]
      generalize 2 ^ 1022 = P at *
      generalize 2 ^ (E - 1) = Q at *
      norm_num
      omega

/-- From one pattern below 2.0 to the next the value grows by at most 2^(-52). -/
theorem value_succ_le {n : Nat} (hn : n < 2 ^ 62) :
    value (BitVec.ofNat 64 (n + 1)) ≤ value (BitVec.ofNat 64 n) + 1 / 2 ^ 52 := by
  have h : ((magnitude (BitVec.ofNat 64 (n + 1)) : Nat) : Rat) ≤ (magnitude (BitVec.ofNat 64 n) : Nat) + (2 : Rat) ^ 1022 := by
    exact_mod_cast magnitude_succ_le hn
  rw [value_eq, value_eq, (fields_ofNat (n := n) (by omega)).1, (fields_ofNat (n := n + 1) (by omega)).1]
  simp only [Bool.false_eq_true, if_false]
  rw [show ((2 ^ 1074 : Nat) : Rat) = 2 ^ 1022 * 2 ^ 52 by rw [Nat.cast_pow, Nat.cast_ofNat, ← pow_add]]
  have hpos : (0 : Rat) < 2 ^ 1022 := by positivity
  generalize (2 : Rat) ^ 1022 = P at *
  push_cast
  rw [div_le_iff₀ (by positivity), add_mul, div_mul_cancel₀ _ (by positivity),
    show 1 / (2 : Rat) ^ 52 * (P * 2 ^ 52) = P by field_simp]
  exact_mod_cast h

/-- The operands of R123 lie in [0, 1]. -/
theorem value_powOperand_mem : ∀ i ∈ List.range 256, 0 ≤ value (powOperand i) ∧ value (powOperand i) ≤ 1 := by
  decide +kernel

/-- The truncated power is in the range of POW-RANGE and as accurate as POW-ACC asks. -/
theorem truncatedPower_accurate {x g : Double} (hx0 : 0 ≤ value x) (hx1 : value x ≤ 1) (hg : 0 < value g) :
    inUnitInterval (truncatedPower x g) = true ∧ isAccuratePower x g (truncatedPower x g) = true := by
  obtain ⟨n, hn, hlt, h1, h2⟩ := truncatedPower_spec hx0 hx1 hg
  have hle := (Rat.cast_le (K := Real)).mpr (value_succ_le hlt)
  have hpow : ((value x : Rat) : Real) ^ ((value g : Rat) : Real) ≤ 1 :=
    Real.rpow_le_one (by exact_mod_cast hx0) (by exact_mod_cast hx1) (by exact_mod_cast hg.le)
  rw [isAccuratePower_iff hx0 hg, hn]
  constructor
  · obtain ⟨hs, he, -⟩ := fields_ofNat (n := n) (by omega)
    have h0 : 0 ≤ value (BitVec.ofNat 64 n) := by
      rw [value_eq, hs]
      simp only [Bool.false_eq_true, if_false]
      exact div_nonneg (by exact_mod_cast Nat.zero_le _) (Nat.cast_nonneg _)
    have hone := h1.trans hpow
    simp only [inUnitInterval, isFinite, Bool.and_eq_true, decide_eq_true_eq, bne_iff_ne, he]
    exact ⟨⟨by omega, h0⟩, by exact_mod_cast hone⟩
  · push_cast at hle
    have : (1 : Real) / 2 ^ 52 ≤ 1 / 2 ^ 40 := by norm_num
    rw [abs_le]
    constructor <;> linarith

end Sys2Proof.Machine
end

