-- ==== Sys2Proof/Tests/Slice0.lean ====
section
/-! SUPPORT. Small tests whose expected values come from the spec's own vectors (spec file 95, the id in each comment) or rules,
and for every statement with hypotheses a concrete state and operands that meet them. -/

namespace Sys2Proof.Tests

open Sys2Proof Sys2Proof.Machine

/-- A block with MEM_SIZE = 64, the size the vectors of spec file 95 section 2.8 use, with an image at SRC. -/
def blockWith (w h src dst : Nat) (samples : List Byte) : State :=
  { State.resetWith 64 with
    width := BitVec.ofNat 32 w, height := BitVec.ofNat 32 h, src := BitVec.ofNat 32 src, dst := BitVec.ofNat 32 dst,
    mem := Memory.writeAll [] src samples }

/-- A 64-bit register that holds a pattern. -/
def reg (p : Double) : Reg64 := { lo := p.setWidth 32, hi := p.extractLsb' 32 32 }

/-- The next state, or a block with no memory where there is none. -/
def after : Host.Outcome State Fault Refusal → State
  | .next s => s
  | _ => State.resetWith 0

/-- The destination after a command. -/
def result (i : Instr) (s : State) : List Byte := (after (exec i s)).readBytes s.dst.toNat s.pixelCount

/-- A block about to perform one operation. -/
def asked (op : Input) (s : State) : State := { s with inputs := [op] }

/-! ### Well-formedness and encoding -/

/-- R210: an access at offset 2 is not an operation of the interface. (A command has no field that could be ill formed.) -/
theorem test_wf_refuses_offset_2 : registerOffsetWf 2 = false := by decide
theorem test_wf_accepts_offset_4 : registerOffsetWf 4 = true := by decide
theorem test_wf_commands : Instr.wf .gray = true ∧ Instr.wf .otsu = true := by decide

/-- R90, R91: each word written out bit by bit, ZERO then OPC. -/
theorem test_decode_gray : decode 0b000000000000000000000000_00000001 = .ok .gray := by decide
theorem test_decode_grayfx : decode 0b000000000000000000000000_00000010 = .ok .grayfx := by decide
theorem test_decode_histeq : decode 0b000000000000000000000000_00000011 = .ok .histeq := by decide
theorem test_decode_gamma : decode 0b000000000000000000000000_00000100 = .ok .gamma := by decide
theorem test_decode_conv3 : decode 0b000000000000000000000000_00000101 = .ok .conv3 := by decide
theorem test_decode_mean3 : decode 0b000000000000000000000000_00000110 = .ok .mean3 := by decide
theorem test_decode_otsu : decode 0b000000000000000000000000_00000111 = .ok .otsu := by decide

/-- V-ACC-13, V-ACC-14, V-ACC-15. -/
theorem test_decode_illegal :
    decode 0x00000000 = .error .reservedOpcode ∧ decode 0x000000FF = .error .reservedOpcode
    ∧ decode 0x00000107 = .error .zeroFieldSet ∧ decode 0x80000001 = .error .zeroFieldSet := by decide

theorem test_decodeTableWord : decodeTableWord 32 3 = some .histeq ∧ decodeTableWord 32 8 = none := by decide

/-! ### Arithmetic -/

/-- V-NUM-2, V-NUM-3, V-NUM-4 (2.5), V-NUM-5. -/
theorem test_clampRound_ties :
    clampRound 0x3FDFFFFFFFFFFFFF = 0 ∧ clampRound 0x3FE0000000000000 = 1 ∧ clampRound 0x4004000000000000 = 3
    ∧ clampRound 0x406FCFFFFFFFFFFF = 254 := by decide +kernel

/-- V-GRAY-3: the binary64 sum of (128,128,128). -/
theorem test_luma_pattern : lumaDouble 128 128 128 = 0x405FFFFFFFFFFFFF := by decide +kernel

/-- R116: x + (−x) = +0.0 and (−0.0) + (−0.0) = −0.0. -/
theorem test_fadd_zero_signs :
    fadd doubleOne 0xBFF0000000000000 = 0x0000000000000000
    ∧ fadd 0x8000000000000000 0x8000000000000000 = 0x8000000000000000 := by decide +kernel

/-! ### Commands -/

/-- V-GRAY-17: source bytes 0A 14 1E are (R, G, B) = (10, 20, 30). -/
theorem test_gray_channel_order : result .gray (blockWith 1 1 0 8 [0x0A, 0x14, 0x1E]) = [18] := by decide +kernel

/-- V-GRAY-8: a decimal tie whose binary64 sum is just below. -/
theorem test_gray_tie_down : grayPixel 0 36 12 = 22 := by decide +kernel

/-- V-GRAY-5: GRAYFX truncates. -/
theorem test_grayfx : grayfxPixel 0 255 0 = 149 ∧ grayfxPixel 255 255 255 = 255 := by decide

/-- V-GRAY-18, two pixels of it: a pixel outside a full lane of 8 has the same formula. -/
theorem test_grayfx_remainder : result .grayfx (blockWith 2 1 0 8 [0, 255, 0, 0, 0, 255]) = [149, 28] := by
  decide +kernel

/-- V-HEQ-3, in place. -/
theorem test_histeq_in_place : result .histeq (blockWith 3 1 0 0 [0, 1, 2]) = [0, 128, 255] := by decide +kernel

/-- V-HEQ-2, to a disjoint destination. -/
theorem test_histeq_constant : result .histeq (blockWith 2 2 0 8 [7, 7, 7, 7]) = [7, 7, 7, 7] := by decide +kernel

/-- V-GAM-1. -/
theorem test_gamma_identity :
    result .gamma { blockWith 2 1 0 0 [1, 200] with gamma := reg 0x3FF0000000000000 } = [1, 200] := by decide +kernel

/-- V-GAM-8, −1.0: refused with PARAM. -/
theorem test_gamma_negative :
    acceptance .gamma { blockWith 2 1 0 0 [] with gamma := reg 0xBFF0000000000000 } = .refused .param := by decide

/-- V-CONV-6: ties round up and the last pixel's right neighbour clamps to itself. -/
theorem test_conv3_ties :
    result .conv3 { blockWith 4 1 0 8 [1, 2, 3, 4] with
      kernel := { Kernel.zero with k4 := reg 0x3FE0000000000000, k5 := reg 0x3FE0000000000000 } } = [2, 3, 4, 4] := by
  decide +kernel

/-- V-CONV-10: K1 is the upper neighbour. -/
theorem test_conv3_no_flip :
    result .conv3 { blockWith 1 2 0 8 [10, 40] with
      kernel := { Kernel.zero with k1 := reg 0x3FF0000000000000 } } = [10, 10] := by decide +kernel

/-- V-MEAN-1. -/
theorem test_mean3_ramp : result .mean3 (blockWith 3 3 0 9 [1, 2, 3, 4, 5, 6, 7, 8, 9]) = [2, 3, 3, 4, 5, 5, 6, 7, 7] := by
  decide +kernel

/-- V-OTSU-6. -/
theorem test_otsu_ramp : cutValue (histogram [0, 1, 2, 3]) 4 = 1 := by decide +kernel

/-- R195: OTSU sets TV and binarizes (V-OTSU-12). -/
theorem test_otsu_single_pixel : result .otsu (blockWith 1 1 0 0 [77]) = [255] := by decide +kernel

/-! ### Acceptance -/

/-- V-ACC-1 to V-ACC-4. -/
theorem test_acceptance_gray :
    acceptance .gray (blockWith 4 4 16 0 []) = .accepted
    ∧ acceptance .gray (blockWith 4 4 17 0 []) = .refused .srcRange
    ∧ acceptance .gray (blockWith 4 4 16 49 []) = .refused .resource
    ∧ acceptance .gray (blockWith 4 4 16 1 []) = .refused .overlap := by decide

/-- V-ACC-5, V-ACC-8, V-ACC-9, V-ACC-10. -/
theorem test_acceptance_point :
    acceptance .histeq (blockWith 0x10000 0x10000 0 0 []) = .refused .srcRange
    ∧ acceptance .gamma { blockWith 2 2 0 2 [] with gamma := reg doubleOne } = .refused .overlap
    ∧ acceptance .gamma (blockWith 2 2 0 0 []) = .refused .param
    ∧ acceptance .conv3 (blockWith 2 2 0 0 []) = .refused .overlap := by decide

/-- V-ACC-12, V-ACC-15 of the kernel (2^1000), V-ACC-19, V-ACC-20. -/
theorem test_acceptance_others :
    acceptance .conv3 { blockWith 2 2 0 4 [] with gamma := reg 0x7FF8000000000000 } = .accepted
    ∧ acceptance .conv3 { blockWith 2 2 0 4 [] with kernel := { Kernel.zero with k4 := reg 0x7E70000000000000 } }
      = .refused .param
    ∧ acceptance .otsu (blockWith 64 1 0 1 []) = .refused .resource
    ∧ acceptance .mean3 (blockWith 8 1 8 0 []) = .accepted := by decide

/-! ### The host's operations and the first command after reset -/

/-- R32: any command issued before the host writes the dimensions is refused with cause DIM. -/
theorem test_first_command_after_reset :
    (after (step (State.reset.withFetchWord 32 7))).errcode = 2 ∧ (after (step (State.reset.withFetchWord 32 7))).errcmd = 7 := by
  decide

/-- V-HOST-6: the halves are independent. -/
theorem test_kernel_half :
    (after (step (asked (.regWrite 0x74 0x3FF00000) State.reset))).kernel.k8 = { lo := 0, hi := 0x3FF00000 } := by decide

/-- V-HOST-8, V-HOST-9. -/
theorem test_status_write :
    (after (step (asked (.regWrite 0x04 2) { State.reset with err := true, tv := true }))).statusWord = 3
    ∧ (after (step (asked (.regWrite 0x04 1) { State.reset with err := true, tv := true }))).statusWord = 2 := by decide

/-- V-HOST-11, and R216 one byte further. -/
theorem test_host_memory :
    (after (step (asked (.memWrite 63 0xAB) (blockWith 0 0 0 0 [])))).readByte 63 = 0xAB
    ∧ (after (step (asked (.memWrite 64 0xAB) (blockWith 0 0 0 0 [])))).mem = [] := by decide

/-! ### Witnesses: for every statement with hypotheses, a state and operands that meet them -/

theorem accepts_of {i : Instr} {s : State} (h : acceptance i s = .accepted) : Accepts i s :=
  (acceptance_eq_accepted_iff i s).mp h

theorem witness_StepRunsTheDecodedCommand :
    (asked (.regWrite 0x00 1) State.reset).inputs = .regWrite 0x00 1 :: [] ∧ decode 1 = .ok .gray := by decide

/-- One state for each branch of the fixed order: latched, ILLEGAL (OPC = 8, the first above the seven), DIM, and the ranges and
parameters at their first failing value; the last is accepted with both ranges filling memory. -/
theorem witness_CommandChecksRunInTheirFixedOrder :
    after (step (asked (.regWrite 0x00 7) { blockWith 1 1 0 0 [] with err := true }))
        = { blockWith 1 1 0 0 [] with err := true }
    ∧ (after (step (asked (.regWrite 0x00 8) (blockWith 1 1 0 0 [])))).errcode = 1
    ∧ (after (step (asked (.regWrite 0x00 7) (blockWith 1 0 0 0 [])))).errcode = 2
    ∧ (after (step (asked (.regWrite 0x00 1) (blockWith 4 4 17 0 [])))).errcode = 3
    ∧ (after (step (asked (.regWrite 0x00 1) (blockWith 4 4 16 49 [])))).errcode = 4
    ∧ (after (step (asked (.regWrite 0x00 1) (blockWith 4 4 16 1 [])))).errcode = 5
    ∧ (after (step (asked (.regWrite 0x00 4) (blockWith 2 2 0 0 [])))).errcode = 6
    ∧ (after (step (asked (.regWrite 0x00 5) { blockWith 2 2 0 4 [] with
        kernel := { Kernel.zero with k8 := reg 0x7E70000000000000 } }))).errcode = 6
    ∧ acceptance .gray (blockWith 4 4 16 0 []) = .accepted := by decide +kernel

theorem witness_HugeImageIsRefusedNotWrapped :
    let s := blockWith 0x10000 0x10001 0 0 []
    s.err = false ∧ s.memSize ≤ 2 ^ 32 ∧ 2 ^ 32 < s.width.toNat * s.height.toNat := by decide

theorem witness_GrayWritesTheRoundedLuma : Accepts .gray (blockWith 4 4 16 0 []) := accepts_of (by decide)

theorem witness_GrayfxWritesTheTruncatedFixedPointLuma : Accepts .grayfx (blockWith 4 4 16 0 []) := accepts_of (by decide)

theorem witness_HisteqSendsSamplesThroughItsTable :
    let s := blockWith 2 1 0 0 [3, 9]
    Accepts .histeq s ∧ 0 < sampleCount s 3 ∧ ∀ v < 3, sampleCount s v = 0 :=
  ⟨accepts_of (by decide), by decide, by decide⟩

/-- An image in place with the smallest positive exponent (V-GAM-7), and the exponent 1.0. -/
theorem witness_GammaSendsSamplesThroughThePowerTable :
    Accepts .gamma { blockWith 64 1 0 0 [] with gamma := reg 0x0000000000000001 } := accepts_of (by decide)

/-- The largest legal weight (V-CONV-13). -/
theorem witness_Conv3AccumulatesNineWeightedNeighbours :
    Accepts .conv3 { blockWith 2 2 0 4 [] with kernel := { Kernel.zero with k4 := reg 0x7E6FFFFFFFFFFFFF } } :=
  accepts_of (by decide)

/-- Ranges that touch (V-ACC-20). -/
theorem witness_Mean3TruncatesTheNeighbourhoodMean : Accepts .mean3 (blockWith 8 1 8 0 []) := accepts_of (by decide)

/-- In place over the whole memory (V-ACC-18). -/
theorem witness_OtsuCutsAtTheFirstLeastCost : Accepts .otsu (blockWith 64 1 0 0 []) := accepts_of (by decide)

theorem witness_NoCommandChangesOperandRegisters :
    exec .gray State.reset = .next (State.reset.refuse .dim 1) := rfl

/-- The clauses of the frame: an executed command that is not OTSU, a refused one, and OTSU refused. -/
theorem witness_CommandsChangeOnlyTheirDestinationBytes :
    (∃ t, exec .grayfx (blockWith 1 1 0 8 [1, 2, 3]) = .next t ∧ t.err = false)
    ∧ (∃ t, exec .gray State.reset = .next t ∧ t.err = true)
    ∧ ∃ t, exec .otsu State.reset = .next t ∧ t.err = true :=
  ⟨⟨_, exec_grayfx_accepted (accepts_of (by decide)), rfl⟩, ⟨_, rfl, rfl⟩, ⟨_, rfl, rfl⟩⟩

theorem witness_OtherCommandsIgnoreTheParameterRegisters :
    Instr.otsu ≠ .gamma ∧ Instr.conv3 ≠ .gamma ∧ Instr.gamma ≠ .conv3 := by decide

/-- Two states that differ in a byte beyond the source, in THRESH and in TV. -/
theorem witness_ResultDependsOnlyOnRegistersAndSource :
    let s := blockWith 2 1 0 8 [3, 9]
    let s' : State := { s with mem := s.mem.write 20 5, thresh := 7, tv := true }
    Accepts .otsu s ∧ s'.err = s.err ∧ s'.src = s.src ∧ s'.dst = s.dst ∧ s'.width = s.width ∧ s'.height = s.height
      ∧ s'.gamma = s.gamma ∧ s'.kernel = s.kernel ∧ s'.memSize = s.memSize
      ∧ ∀ p, p < s.sourceSize .otsu → s'.readByte (s.src.toNat + p) = s.readByte (s.src.toNat + p) :=
  ⟨accepts_of (by decide), rfl, rfl, rfl, rfl, rfl, rfl, rfl, rfl, by decide⟩

theorem witness_InPlaceResultEqualsDisjointResult :
    let s := blockWith 2 1 0 0 [3, 9]
    commandClass .otsu = .point ∧ s.dst = s.src ∧ Accepts .otsu s ∧ Accepts .otsu { s with dst := 2 } :=
  ⟨rfl, rfl, accepts_of (by decide), accepts_of (by decide)⟩

theorem witness_IdleBlockDoesNothing : State.reset.inputs = [] := rfl

/-- A read at each end of the map, of a register, of the last weight half, of a reserved offset and at no register's offset. -/
theorem witness_RegisterReadsFollowTheMap :
    ∀ off ∈ [0x00, 0x04, 0x08, 0x0C, 0x10, 0x14, 0x18, 0x1C, 0x20, 0x24, 0x28, 0x2C, 0x30, 0x74, 0x78, 0x02],
      (asked (.regRead off) State.reset).inputs = .regRead off :: [] := by decide

theorem witness_RegisterWritesFollowTheMap :
    ∀ off ∈ [0x00, 0x04, 0x08, 0x0C, 0x10, 0x14, 0x18, 0x1C, 0x20, 0x24, 0x28, 0x2C, 0x30, 0x74, 0x78, 0x02],
      (asked (.regWrite off 1) State.reset).inputs = .regWrite off 1 :: [] := by decide

theorem witness_RegisterNamesAndOffsetsAgree :
    Register.kHi 8 ≠ .reserved ∧ 0x74 % 4 = 0 ∧ registerAt 0x74 ≠ .reserved ∧ 0x78 % 4 = 0 ∧ 0x24 % 4 = 0 := by decide

theorem witness_SetkLineStoresTheWholeWeight :
    (State.reset.withScript [.setk 8 doubleOne]).inputs = (ScriptLine.setk 8 doubleOne).ops ++ [] := by decide

theorem witness_WrittenRegisterReadsBack :
    ∀ off ∈ [0x10, 0x1C, 0x28, 0x74],
      (asked (.regWrite off 1) State.reset).inputs = .regWrite off 1 :: [] ∧ off % 4 = 0
      ∧ (0x10 ≤ off ∧ off < 0x20 ∨ 0x28 ≤ off ∧ off < 0x78) := by decide

/-- A state that meets the invariant, with MEM_SIZE = 64 and a cause latched; and one with none. -/
theorem witness_invariant :
    ({ State.resetWith 64 with err := true, errcode := 2, errcmd := 7 } : State).Inv ∧ (State.resetWith 64).Inv :=
  ⟨⟨rfl, nofun, by decide, nofun, fun _ => ⟨.dim, rfl, .otsu, rfl⟩, by decide, fun _ => rfl⟩,
    ⟨rfl, nofun, by decide, fun _ => ⟨rfl, rfl⟩, nofun, by decide, fun _ => rfl⟩⟩

/-- Bit 0 set, bit 0 clear, and ERR already 0 in a state that meets the invariant. -/
theorem witness_StatusWriteClearsTheErrorState :
    (asked (.regWrite 0x04 1) State.reset).inputs = .regWrite 0x04 1 :: [] ∧ (1 : Word).getLsbD 0 = true
    ∧ (asked (.regWrite 0x04 0xFFFFFFFE) State.reset).inputs = .regWrite 0x04 0xFFFFFFFE :: []
    ∧ (0xFFFFFFFE : Word).getLsbD 0 = false
    ∧ (asked (.regWrite 0x04 1) (State.resetWith 64)).Inv ∧ (asked (.regWrite 0x04 1) (State.resetWith 64)).err = false :=
  ⟨rfl, by decide, rfl, by decide,
    ⟨rfl, nofun, by decide, fun _ => ⟨rfl, rfl⟩, nofun, by decide, fun _ => rfl⟩, rfl⟩

theorem witness_HostReadReturnsTheByte :
    (asked (.memRead 63) (State.resetWith 64)).inputs = .memRead 63 :: []
    ∧ 63 < (asked (.memRead 63) (State.resetWith 64)).memSize := by decide

theorem witness_HostWriteSetsTheByte :
    (asked (.memWrite 63 5) (State.resetWith 64)).inputs = .memWrite 63 5 :: []
    ∧ 63 < (asked (.memWrite 63 5) (State.resetWith 64)).memSize := by decide

theorem witness_HostAccessBeyondMemoryChangesNothing :
    (asked (.memRead 64) (State.resetWith 64)).memSize ≤ 64
    ∧ (asked (.memRead 64) (State.resetWith 64)).inputs = .memRead 64 :: []
    ∧ (asked (.memWrite 64 5) (State.resetWith 64)).inputs = .memWrite 64 5 :: [] := by decide

/-- A latched block leaves the latch by a write to STATUS, and another by reset. -/
theorem witness_OnlyStatusWriteOrResetLeavesTheLatch :
    let s : State := { State.resetWith 64 with err := true, errcode := 2, errcmd := 7 }
    s.err = true ∧ (∃ t, step (asked (.regWrite 0x04 1) s) = .next t ∧ t.err = false)
      ∧ ∃ t, step (asked .reset s) = .next t ∧ t.err = false :=
  ⟨rfl, ⟨_, rfl, rfl⟩, ⟨_, rfl, rfl⟩⟩

/-- OTSU sets TV, and reset clears it. -/
theorem witness_OnlyOtsuOrResetChangesTheThreshold :
    (∃ t, step (asked (.regWrite 0x00 7) (blockWith 1 1 0 0 [77])) = .next t ∧ t.tv ≠ (blockWith 1 1 0 0 [77]).tv)
    ∧ ∃ t, step (asked .reset { State.reset with tv := true }) = .next t ∧ t.tv ≠ true := by
  refine ⟨?_, ⟨_, rfl, by decide⟩⟩
  have h : Accepts .otsu (blockWith 1 1 0 0 [77]) := accepts_of (by decide)
  exact ⟨_, exec_otsu_accepted h, by simp [blockWith, State.resetWith]⟩

/-- A state that meets the invariant and steps. -/
theorem witness_EveryStepKeepsTheInvariant :
    (State.resetWith 64).Inv ∧ step (State.resetWith 64) = .next (State.resetWith 64) :=
  ⟨witness_invariant.2, rfl⟩

theorem witness_EveryRegisterReadsZeroAfterReset : 0x74 % 4 = 0 ∧ 0x78 % 4 = 0 := by decide

theorem witness_PlatformResetClearsTheBlock : (asked .reset State.reset).inputs = .reset :: [] := rfl

/-- Four rational numbers at the boundaries of R113, with their exponent, unit and nearest integer: the interior, a tie of a
negative number (to the even neighbour), a tie at the overflow boundary 2^1024, and a subnormal tie. -/
theorem witness_FlRoundsToNearestTiesToEven :
    let meets (q : Rat) (e : Int) (u : Rat) (m : Int) : Prop :=
      (2 : Rat) ^ e ≤ |q| ∧ |q| < (2 : Rat) ^ (e + 1)
        ∧ u = (if -1022 ≤ e then (2 : Rat) ^ (e - 52) else (2 : Rat) ^ (-1074 : Int))
        ∧ (|q / u - m| < 1 / 2 ∨ (|q / u - m| = 1 / 2 ∧ Even m))
    meets 1 0 (1 / 2 ^ 52) (2 ^ 52) ∧ meets (-(2 ^ 53 + 1) / 2 ^ 53) 0 (1 / 2 ^ 52) (-2 ^ 52)
    ∧ meets (2 ^ 1024 - 2 ^ 970) 1023 (2 ^ 971) (2 ^ 53) ∧ meets (3 / 2 ^ 1075) (-1074) (1 / 2 ^ 1074) 2 := by
  decide +kernel

/-- Finite operands for the clause of each operation: an exact result that is not zero, and one that is. -/
theorem witness_operations_round_once :
    isFinite doubleOne = true ∧ isFinite 0xBFF0000000000000 = true ∧ isFinite 0x8000000000000000 = true
    ∧ value doubleOne * value doubleOne ≠ 0 ∧ value doubleOne * value 0x8000000000000000 = 0
    ∧ value doubleOne + value doubleOne ≠ 0 ∧ value doubleOne + value 0xBFF0000000000000 = 0
    ∧ value 0x8000000000000000 + value 0x8000000000000000 = 0
    ∧ value doubleOne ≠ 0 ∧ value 0x8000000000000000 = 0 := by decide +kernel

theorem witness_OfIntIsExact : (9007199254740991 : Int).natAbs < 2 ^ 53 ∧ (-9007199254740991 : Int).natAbs < 2 ^ 53 := by decide +kernel

/-- A NaN, an infinity, and finite patterns at the boundaries of the cases. -/
theorem witness_ClampRoundRoundsHalfAwayAndSaturates :
    isNaN 0x7FF8000000000000 = true ∧ isInfinite 0xFFF0000000000000 = true
    ∧ (isFinite 0x3FDFFFFFFFFFFFFF = true ∧ value 0x3FDFFFFFFFFFFFFF < 1 / 2)
    ∧ (isFinite 0x3FE0000000000000 = true ∧ 1 / 2 ≤ value 0x3FE0000000000000 ∧ value 0x3FE0000000000000 < 509 / 2)
    ∧ (isFinite 0x406FD00000000000 = true ∧ 509 / 2 ≤ value 0x406FD00000000000) := by decide +kernel

theorem witness_ConvolutionNeverOverflows :
    (List.replicate 9 (0xFE6FFFFFFFFFFFFF : Double)).length ≤ 9
    ∧ ∀ w ∈ List.replicate 9 (0xFE6FFFFFFFFFFFFF : Double), w.extractLsb' 52 11 < 2023 :=
  ⟨by simp, fun w h => by rw [List.eq_of_mem_replicate h]; decide⟩

theorem witness_EqualizerTableHasAnIntegerForm :
    let samples : List Byte := [3, 9]
    samples.length ≤ 2 ^ 32 ∧ samples.length ≠ darkestCount (histogram samples) := by decide +kernel

theorem witness_EqualizerTableNeverDecreases :
    let samples : List Byte := [3, 3, 9]
    samples.length ≤ 2 ^ 32 ∧ samples.length ≠ darkestCount (histogram samples) := by decide +kernel

theorem witness_HisteqCopiesAConstantImage :
    let s := blockWith 2 1 0 2 [7, 7]
    Accepts .histeq s ∧ ∀ p, p < s.pixelCount → s.readByte (s.src.toNat + p) = 7 :=
  ⟨accepts_of (by decide), by decide⟩

/-- An image that is not constant: its first pixel is the darkest, its second the brightest. -/
theorem witness_HisteqStretchesOverTheFullRange :
    let s := blockWith 2 1 0 2 [3, 9]
    let before (p : Nat) := (s.readByte (s.src.toNat + p)).toNat
    Accepts .histeq s ∧ s.memSize ≤ 2 ^ 32
      ∧ (∃ p q, p < s.pixelCount ∧ q < s.pixelCount ∧ before p ≠ before q)
      ∧ (∀ q, q < s.pixelCount → before 0 ≤ before q) ∧ ∀ q, q < s.pixelCount → before q ≤ before 1 :=
  ⟨accepts_of (by decide), by decide, ⟨0, 1, by decide⟩, by decide, by decide⟩

theorem witness_GammaOneIsTheIdentity :
    PowId (fun x _ => x)
    ∧ let s := { blockWith 2 1 0 0 [3, 9] with gamma := { lo := 0x00000000, hi := 0x3FF00000 } }
      Accepts .gamma s :=
  ⟨fun _ _ => rfl, accepts_of (by decide)⟩

/-- An image with a black and a white pixel, and the largest finite exponent. -/
theorem witness_GammaKeepsBlackAndWhite :
    let s := { blockWith 2 1 0 0 [0, 255] with gamma := reg 0x7FEFFFFFFFFFFFFF }
    Accepts .gamma s ∧ s.readByte (s.src.toNat + 0) = 0 ∧ s.readByte (s.src.toNat + 1) = 255 :=
  ⟨accepts_of (by decide), by decide, by decide⟩

/-- A power function for g = 2.0: the rounded square. -/
def square (x _g : Double) : Double := fmul x x

theorem square_is_accurate :
    ∀ i ∈ List.range 256,
      |value (square (powOperand i) 0x4000000000000000) - value (powOperand i) * value (powOperand i)| ≤ 1 / 2 ^ 40 := by
  decide +kernel

theorem witness_GammaTwoTableFollowsFromAccuracy : PowAccAt square 0x4000000000000000 := by
  intro i hi
  have hv : value 0x4000000000000000 = 2 := by decide +kernel
  have hp : ((value (powOperand i) : Rat) : Real) ^ ((2 : Rat) : Real)
      = ((value (powOperand i) * value (powOperand i) : Rat) : Real) := by
    push_cast
    rw [Real.rpow_two, sq]
  rw [hv, hp]
  have h := (Rat.cast_le (K := Real)).mpr (square_is_accurate i (List.mem_range.mpr (by omega)))
  push_cast at h ⊢
  exact h

/-- The square at the ends and in the middle of its operands, the identity at g = 1.0, and operands of which R123 says nothing: an
illegal exponent, and the number 2.0. -/
theorem witness_AllowedPowerResultsAreKept :
    (∀ i ∈ [0, 128, 255], i ≤ 255 ∧ inUnitInterval (square (powOperand i) 0x4000000000000000) = true
      ∧ (i = 0 → square (powOperand i) 0x4000000000000000 = 0x0000000000000000)
      ∧ (i = 255 → square (powOperand i) 0x4000000000000000 = 0x3FF0000000000000))
    ∧ legalGamma 0x4000000000000000 = true ∧ PowAccAt square 0x4000000000000000
    ∧ legalGamma doubleOne = true ∧ inUnitInterval (powOperand 128) = true ∧ PowAccAt (fun x _ => x) doubleOne
    ∧ legalGamma 0xBFF0000000000000 = false ∧ ∀ i ≤ 255, (0x4000000000000000 : Double) ≠ powOperand i := by
  have hv : value doubleOne = 1 := by decide +kernel
  have htwo : ∀ i ∈ List.range 256, (0x4000000000000000 : Double) ≠ powOperand i := by decide +kernel
  exact ⟨by decide +kernel, by decide, witness_GammaTwoTableFollowsFromAccuracy, by decide, by decide +kernel,
    fun i _ => by simp [hv], by decide, fun i hi => htwo i (List.mem_range.mpr (by omega))⟩

/-- The sample 128 of the spec's example under R170, at both exponents. -/
theorem witness_GammaCommandAtTwoAndAtOneHalf :
    Accepts .gamma { blockWith 1 1 0 0 [128] with gamma := { lo := 0x00000000, hi := 0x40000000 } }
    ∧ Accepts .gamma { blockWith 1 1 0 0 [128] with gamma := { lo := 0x00000000, hi := 0x3FE00000 } } :=
  ⟨accepts_of (by decide), accepts_of (by decide)⟩

/-- At g = 2.0 the sample 128 is far from every half-integer: 255·(128/255)² = 16384/255, and 2·16384 is even where 255·(2k + 1) is
odd. -/
theorem witness_GammaIsDeterminedAwayFromTies :
    let s := { blockWith 1 1 0 0 [128] with gamma := reg 0x4000000000000000 }
    Accepts .gamma s ∧ value (s.gamma.hi ++ s.gamma.lo) ≤ 1024 ∧ 0 < s.width.toNat * s.height.toNat
      ∧ ∀ k : Int, (1 : Real) / 2 ^ 31 < |255 * (((s.readByte (s.src.toNat + 0)).toNat : Real) / 255)
        ^ ((value (s.gamma.hi ++ s.gamma.lo) : Rat) : Real) - (k + 1 / 2)| := by
  intro s
  have hv : value (s.gamma.hi ++ s.gamma.lo) = 2 := by decide +kernel
  have hb : (s.readByte (s.src.toNat + 0)).toNat = 128 := by decide
  refine ⟨accepts_of (by decide), by rw [hv]; norm_num, by decide, fun k => ?_⟩
  have hk : (1 : Real) ≤ |(32768 - 255 * (2 * k + 1) : Int)| := by
    exact_mod_cast Int.one_le_abs (by omega)
  rw [hv, hb]
  push_cast at hk ⊢
  rw [Real.rpow_two, show (255 : Real) * (128 / 255) ^ 2 - (k + 1 / 2) = (32768 - 255 * (2 * k + 1)) / 510 by ring,
    abs_div, abs_of_pos (by norm_num : (0 : Real) < 510), lt_div_iff₀ (by norm_num)]
  exact lt_of_lt_of_le (by norm_num) hk

theorem witness_GammaTableNeverDecreases :
    PowRange (fun _ _ => doubleOne) ∧ PowMono (fun _ _ => doubleOne) ∧ legalGamma doubleOne = true :=
  have h : inUnitInterval doubleOne = true := by decide +kernel
  ⟨fun _ _ _ _ => h, fun _ _ _ _ _ _ => le_refl _, by decide⟩

/-- The identity kernel with a zero of each sign among the other weights. -/
theorem witness_IdentityKernelCopiesTheImage :
    let s := { blockWith 2 1 0 2 [3, 9] with
      kernel := { Kernel.zero with k3 := reg 0x8000000000000000, k4 := reg 0x3FF0000000000000 } }
    Accepts .conv3 s ∧ s.kernel.k4.hi ++ s.kernel.k4.lo = 0x3FF0000000000000#64
      ∧ ∀ k ∈ [s.kernel.k0, s.kernel.k1, s.kernel.k2, s.kernel.k3, s.kernel.k5, s.kernel.k6, s.kernel.k7, s.kernel.k8],
        k.hi ++ k.lo = 0x0000000000000000#64 ∨ k.hi ++ k.lo = 0x8000000000000000#64 :=
  ⟨accepts_of (by decide), by decide, by decide⟩

theorem witness_Mean3StaysWithinTheSampleRange :
    let s := blockWith 2 1 0 2 [3, 9]
    Accepts .mean3 s ∧ ∀ p, p < s.pixelCount →
      3 ≤ (s.readByte (s.src.toNat + p)).toNat ∧ (s.readByte (s.src.toNat + p)).toNat ≤ 9 :=
  ⟨accepts_of (by decide), by decide⟩

/-- A constant image of intensity 7, and one of intensity 0. -/
theorem witness_OtsuOnAConstantImage :
    ∀ v ∈ [(7 : Byte), 0], Accepts .otsu (blockWith 2 1 0 0 [v, v])
      ∧ ∀ p, p < (blockWith 2 1 0 0 [v, v]).pixelCount → (blockWith 2 1 0 0 [v, v]).readByte p = v := by
  intro v hv
  simp only [List.mem_cons, List.not_mem_nil, or_false] at hv
  rcases hv with rfl | rfl <;> exact ⟨accepts_of (by decide), by decide⟩

theorem witness_OtsuOnTwoIntensities :
    let s := blockWith 2 1 0 0 [10, 200]
    Accepts .otsu s ∧ (10 : Byte).toNat < (200 : Byte).toNat
      ∧ (∀ p, p < s.pixelCount → s.readByte (s.src.toNat + p) = 10 ∨ s.readByte (s.src.toNat + p) = 200)
      ∧ (∃ p, p < s.pixelCount ∧ s.readByte (s.src.toNat + p) = 10)
      ∧ ∃ p, p < s.pixelCount ∧ s.readByte (s.src.toNat + p) = 200 :=
  ⟨accepts_of (by decide), by decide, by decide, ⟨0, by decide⟩, 1, by decide⟩

theorem witness_OtsuCutIsZeroOrOccurs : Accepts .otsu (blockWith 1 1 63 63 [77]) := accepts_of (by decide)

theorem witness_OtsuCutMaximisesBetweenClassSum : ([10, 200] : List Byte) ≠ [] := by decide

end Sys2Proof.Tests
end

section
/-! PROOFS. The frame of a command on the registers that give it its operands (R34). -/

namespace Sys2Proof.Proofs

open Sys2Proof.Machine

/-- The registers that a command reads its operands from, the same in two states. -/
structure SameOperandRegisters (s t : State) : Prop where
  src : t.src = s.src
  dst : t.dst = s.dst
  width : t.width = s.width
  height : t.height = s.height
  gamma : t.gamma = s.gamma
  kernel : t.kernel = s.kernel

namespace SameOperandRegisters

theorem refl (s : State) : SameOperandRegisters s s := ⟨rfl, rfl, rfl, rfl, rfl, rfl⟩

theorem trans {s t u : State} (hst : SameOperandRegisters s t) (htu : SameOperandRegisters t u) :
    SameOperandRegisters s u :=
  ⟨htu.src.trans hst.src, htu.dst.trans hst.dst, htu.width.trans hst.width, htu.height.trans hst.height,
    htu.gamma.trans hst.gamma, htu.kernel.trans hst.kernel⟩

theorem refuse (s : State) (cause : Cause) (word : Word) : SameOperandRegisters s (s.refuse cause word) :=
  ⟨refuse_src s cause word, refuse_dst s cause word, refuse_width s cause word, refuse_height s cause word,
    refuse_gamma s cause word, refuse_kernel s cause word⟩

theorem writeBytes (s : State) (a : Nat) (v : List Byte) : SameOperandRegisters s (s.writeBytes a v) :=
  ⟨writeBytes_src s a v, writeBytes_dst s a v, writeBytes_width s a v, writeBytes_height s a v,
    writeBytes_gamma s a v, writeBytes_kernel s a v⟩

theorem recordThreshold (s : State) (cut : Byte) : SameOperandRegisters s (s.recordThreshold cut) :=
  ⟨recordThreshold_src s cut, recordThreshold_dst s cut, recordThreshold_width s cut, recordThreshold_height s cut,
    recordThreshold_gamma s cut, recordThreshold_kernel s cut⟩

/-- An executed command writes its destination bytes, and OTSU also its cut. -/
theorem of_executed {i : Instr} {s t : State} (h : Executed i s t) : SameOperandRegisters s t := by
  cases h with
  | image pixel _ => exact writeBytes s _ _
  | cut pixel _ => exact (recordThreshold s _).trans (writeBytes _ _ _)

/-- Ignored, refused or executed: the three things a command can do (`exec_cases`). -/
theorem of_exec {i : Instr} {s t : State} (h : exec i s = .next t) : SameOperandRegisters s t := by
  rcases exec_cases i s with ⟨-, hignored⟩ | ⟨cause, -, -, hrefused⟩ | ⟨-, u, hnext, hexecuted⟩
  · cases hignored.symm.trans h
    exact refl s
  · cases hrefused.symm.trans h
    exact refuse s cause (encode i)
  · cases hnext.symm.trans h
    exact of_executed hexecuted

end SameOperandRegisters

/-- Settles O13, by the three outcomes of a command. -/
theorem noCommandChangesOperandRegisters : Obligations.NoCommandChangesOperandRegisters := by
  intro i s t h
  have same := SameOperandRegisters.of_exec h
  exact ⟨same.src, same.dst, same.width, same.height, same.gamma, same.kernel⟩

end Sys2Proof.Proofs
end

section
/-! PROOFS. The conversion of a binary64 number to a sample: rounding half away from zero, then saturation (R118). -/

namespace Sys2Proof.Proofs

open Sys2Proof.Machine

/-! ### The classes of patterns and their fields (R112) -/

theorem isNaN_of_isFinite {p : Double} (h : isFinite p = true) : isNaN p = false := by
  unfold isFinite at h
  simp only [bne_iff_ne] at h
  simp [isNaN, h]

theorem isInfinite_of_isFinite {p : Double} (h : isFinite p = true) : isInfinite p = false := by
  unfold isFinite at h
  simp only [bne_iff_ne] at h
  simp [isInfinite, h]

theorem isNaN_of_isInfinite {p : Double} (h : isInfinite p = true) : isNaN p = false := by
  unfold isInfinite at h
  simp only [Bool.and_eq_true, beq_iff_eq] at h
  simp [isNaN, h]

/-! ### `clamp_round` (R118) -/

theorem clampRound_of_isNaN {f : Double} (h : isNaN f = true) : clampRound f = 0 := by
  unfold clampRound
  rw [if_pos h]

theorem clampRound_of_isInfinite {f : Double} (h : isInfinite f = true) :
    clampRound f = if signBit f then 0 else 255 := by
  unfold clampRound
  simp only [isNaN_of_isInfinite h, h, Bool.false_eq_true, if_false, if_true]

theorem clampRound_of_isFinite {f : Double} (h : isFinite f = true) :
    clampRound f = if value f < 1 / 2 then 0 else if 509 / 2 ≤ value f then 255
      else BitVec.ofInt 8 ⌊value f + 1 / 2⌋ := by
  unfold clampRound
  simp only [isNaN_of_isFinite h, isInfinite_of_isFinite h, Bool.false_eq_true, if_false]
  rfl

/-- Between the two bounds of R118 the rounded value is a sample, so its low eight bits are all of it. -/
theorem toNat_clampRound_between {f : Double} (h : isFinite f = true) (hlow : 1 / 2 ≤ value f)
    (hhigh : value f < 509 / 2) : ((clampRound f).toNat : Int) = ⌊value f + 1 / 2⌋ := by
  have h0 : 0 ≤ ⌊value f + 1 / 2⌋ := Int.floor_nonneg.mpr (by linarith)
  have h255 : ⌊value f + 1 / 2⌋ < 255 := Int.floor_lt.mpr (by push_cast; linarith)
  rw [clampRound_of_isFinite h, if_neg (not_lt.mpr hlow), if_neg (not_le.mpr hhigh), BitVec.toNat_ofInt]
  omega

/-- The integer nearest to x, the one farther from 0 when x lies halfway between two (R118). -/
def roundHalfAway (x : Rat) : Int := if 0 ≤ x then ⌊x + 1 / 2⌋ else -⌊-x + 1 / 2⌋

theorem roundHalfAway_nonpos {x : Rat} (h : x < 1 / 2) : roundHalfAway x ≤ 0 := by
  unfold roundHalfAway
  split_ifs with h0
  · exact Int.lt_add_one_iff.mp (Int.floor_lt.mpr (by push_cast; linarith))
  · exact neg_nonpos.mpr (Int.floor_nonneg.mpr (by linarith))

theorem le_roundHalfAway {x : Rat} (h : 509 / 2 ≤ x) : 255 ≤ roundHalfAway x := by
  unfold roundHalfAway
  rw [if_pos (by linarith)]
  exact Int.le_floor.mpr (by push_cast; linarith)

/-- The three finite cases of R118 are rounding half away from zero first and saturation second. -/
theorem toNat_clampRound_eq_saturated {f : Double} (h : isFinite f = true) :
    ((clampRound f).toNat : Int) = max 0 (min 255 (roundHalfAway (value f))) := by
  rcases lt_or_ge (value f) (1 / 2) with hlow | hlow
  · have := roundHalfAway_nonpos hlow
    rw [clampRound_of_isFinite h, if_pos hlow, show ((0 : Byte).toNat : Int) = 0 from rfl]
    omega
  rcases lt_or_ge (value f) (509 / 2) with hhigh | hhigh
  · have hround : roundHalfAway (value f) = ⌊value f + 1 / 2⌋ := if_pos (by linarith)
    have hsample := toNat_clampRound_between h hlow hhigh
    have hbyte := (clampRound f).isLt
    omega
  · have := le_roundHalfAway hhigh
    rw [clampRound_of_isFinite h, if_neg (not_lt.mpr hlow), if_pos hhigh,
      show ((255 : Byte).toNat : Int) = 255 from rfl]
    omega

/-- Settles O38, by the cases of R118. -/
theorem clampRoundRoundsHalfAwayAndSaturates : Obligations.ClampRoundRoundsHalfAwayAndSaturates := by
  intro f
  refine ⟨clampRound_of_isNaN, clampRound_of_isInfinite, fun h => ⟨fun hlow => ?below, fun hhigh => ?above,
    toNat_clampRound_between h, toNat_clampRound_eq_saturated h⟩⟩
  case below => rw [clampRound_of_isFinite h, if_pos hlow]
  case above => rw [clampRound_of_isFinite h, if_neg (by linarith), if_pos hhigh]

end Sys2Proof.Proofs
end

section
/-! PROOFS. Rounding to binary64 as a count of units in the last place (R113), and the operations that round once (R115 to
R117). -/

namespace Sys2Proof.Proofs

open Sys2Proof.Machine

/-! ### The nearest integer, the even one at a tie -/

/-- The rounding of R113 to an integer: m is nearest to x, and even when x lies halfway between two integers. -/
def IsNearestEven (x : Rat) (m : Int) : Prop := |x - m| < 1 / 2 ∨ (|x - m| = 1 / 2 ∧ Even m)

theorem IsNearestEven.abs_sub_le {x : Rat} {m : Int} (h : IsNearestEven x m) : |x - m| ≤ 1 / 2 :=
  h.elim le_of_lt fun tie => tie.1.le

theorem IsNearestEven.even_of_tie {x : Rat} {m : Int} (h : IsNearestEven x m) (tie : |x - m| = 1 / 2) : Even m :=
  h.elim (fun hlt => absurd tie hlt.ne) And.right

theorem IsNearestEven.neg {x : Rat} {m : Int} (h : IsNearestEven x m) : IsNearestEven (-x) (-m) := by
  unfold IsNearestEven
  rw [Int.cast_neg, neg_sub_neg, abs_sub_comm, even_neg]
  exact h

/-- Of two different nearest integers one is the other's successor, with x halfway between; but then both are even. -/
theorem IsNearestEven.le {x : Rat} {m n : Int} (hm : IsNearestEven x m) (hn : IsNearestEven x n) : m ≤ n := by
  have hmx := (abs_le.mp hm.abs_sub_le).1
  have hnx := (abs_le.mp hn.abs_sub_le).2
  by_contra hlt
  have hsucc : m = n + 1 := by
    have : m ≤ n + 1 := by exact_mod_cast (by linarith : (m : Rat) ≤ n + 1)
    omega
  have hx : x = n + 1 / 2 := by
    rw [hsucc] at hmx
    push_cast at hmx
    linarith
  have hn_even : Even n := hn.even_of_tie (by rw [hx]; norm_num)
  have hm_even : Even m := hm.even_of_tie (by rw [hx, hsucc]; push_cast; norm_num [abs_div])
  exact Int.not_even_iff_odd.mpr (hsucc ▸ hn_even.add_one) hm_even

theorem IsNearestEven.unique {x : Rat} {m n : Int} (hm : IsNearestEven x m) (hn : IsNearestEven x n) : m = n :=
  le_antisymm (hm.le hn) (hn.le hm)

/-- A nonnegative fraction with its quotient c and remainder r: r/d lies below, at or above the halfway point. -/
theorem isNearestEven_nearestEven (n : Nat) {d : Nat} (hd : 0 < d) :
    IsNearestEven ((n : Rat) / d) (nearestEven n d : Nat) := by
  have hd' : (0 : Rat) < d := by exact_mod_cast hd
  have hdiv : (n : Rat) / d = (n / d : Nat) + (n % d : Nat) / (d : Rat) := by
    rw [div_eq_iff hd'.ne', add_mul, div_mul_cancel₀ _ hd'.ne', mul_comm]
    exact_mod_cast (Nat.div_add_mod n d).symm
  have hr : n % d < d := Nat.mod_lt n hd
  unfold IsNearestEven nearestEven
  rw [hdiv, Int.cast_natCast]
  generalize n / d = c
  generalize n % d = r at *
  have hr0 : (0 : Rat) ≤ r / d := by positivity
  have hr1 : (r : Rat) / d < 1 := (div_lt_one hd').mpr (by exact_mod_cast hr)
  rcases lt_trichotomy (2 * r) d with hlow | htie | hhigh
  · have hhalf : (r : Rat) / d < 1 / 2 := by
      rw [div_lt_div_iff₀ hd' two_pos]
      exact_mod_cast (by omega : r * 2 < 1 * d)
    rw [if_pos hlow, add_sub_cancel_left, abs_of_nonneg hr0]
    exact .inl hhalf
  · have hhalf : (r : Rat) / d = 1 / 2 := by
      rw [div_eq_div_iff hd'.ne' two_ne_zero]
      exact_mod_cast (by omega : r * 2 = 1 * d)
    rw [if_neg htie.not_lt, if_neg htie.symm.not_lt, hhalf]
    right
    rcases Nat.mod_two_eq_zero_or_one c with heven | hodd
    · rw [heven]
      exact ⟨by norm_num, by exact_mod_cast Nat.even_iff.mpr heven⟩
    · rw [hodd]
      exact ⟨by norm_num [abs_div], by exact_mod_cast (Nat.odd_iff.mpr hodd).add_one⟩
  · have hhalf : 1 / 2 < (r : Rat) / d := by
      rw [div_lt_div_iff₀ two_pos hd']
      exact_mod_cast (by omega : 1 * d < r * 2)
    rw [if_neg hhigh.not_gt, if_pos hhigh, Nat.cast_add_one, add_sub_add_left_eq_sub, abs_sub_comm,
      abs_of_pos (by linarith)]
    exact .inl (by linarith)

/-! ### A rational number counted in units of its last place (R113) -/

/-- The number k for which the unit of q is 2^(k-1074): 0 below the normal range. -/
def unitExponent (q : Rat) : Nat := (q.num.natAbs * 2 ^ 1074 / q.den).log2 - 52

/-- The unit u of R113. -/
def unitOf (q : Rat) : Rat := 2 ^ ((unitExponent q : Int) - 1074)

/-- The integer nearest to |q|/u. -/
def unitCount (q : Rat) : Nat := nearestEven (q.num.natAbs * 2 ^ 1074) (q.den * 2 ^ unitExponent q)

theorem fl_eq_packSign (q : Rat) :
    fl q = packSign (decide (q < 0)) (min (unitExponent q * 2 ^ 52 + unitCount q) infinityBits) := rfl

theorem unitOf_pos (q : Rat) : 0 < unitOf q := zpow_pos two_pos _

/-- |q|/u is the fraction that the model hands to `nearestEven`. -/
theorem abs_div_unitOf (q : Rat) :
    |q| / unitOf q = (q.num.natAbs * 2 ^ 1074 : Nat) / (q.den * 2 ^ unitExponent q : Nat) := by
  have habs : |q| = (q.num.natAbs : Rat) / q.den := by
    rw [← Rat.num_div_den |q|, Rat.num_abs_eq_abs_num, Rat.den_abs_eq_den, Int.abs_eq_natAbs, Int.cast_natCast]
  have hunit : unitOf q = 2 ^ unitExponent q / 2 ^ 1074 := by
    unfold unitOf
    rw [zpow_sub₀ two_ne_zero, zpow_natCast, zpow_ofNat]
  rw [habs, hunit, div_div_div_eq, Nat.cast_mul, Nat.cast_mul, Nat.cast_pow, Nat.cast_pow, Nat.cast_ofNat]

theorem isNearestEven_unitCount (q : Rat) : IsNearestEven (|q| / unitOf q) (unitCount q : Nat) := by
  rw [abs_div_unitOf]
  exact isNearestEven_nearestEven _ (Nat.mul_pos q.den_pos (Nat.two_pow_pos _))

/-- q is less than 2^53 of its units. -/
theorem abs_div_unitOf_lt (q : Rat) : |q| / unitOf q < 2 ^ 53 := by
  have hden : 0 < q.den * 2 ^ unitExponent q := Nat.mul_pos q.den_pos (Nat.two_pow_pos _)
  rw [abs_div_unitOf, show (2 : Rat) ^ 53 = (2 ^ 53 : Nat) by norm_num, div_lt_iff₀ (by exact_mod_cast hden),
    ← Nat.cast_mul, Nat.cast_lt]
  have hlog : q.num.natAbs * 2 ^ 1074 / q.den < 2 ^ (unitExponent q + 53) :=
    Nat.lt_log2_self.trans_le (Nat.pow_le_pow_right two_pos (by unfold unitExponent; omega))
  rw [Nat.div_lt_iff_lt_mul q.den_pos] at hlog
  exact hlog.trans_eq (by ring)

/-- In the normal range q is at least 2^52 of its units. -/
theorem le_abs_div_unitOf {q : Rat} (h : unitExponent q ≠ 0) : 2 ^ 52 ≤ |q| / unitOf q := by
  have hden : 0 < q.den * 2 ^ unitExponent q := Nat.mul_pos q.den_pos (Nat.two_pow_pos _)
  rw [abs_div_unitOf, show (2 : Rat) ^ 52 = (2 ^ 52 : Nat) by norm_num, le_div_iff₀ (by exact_mod_cast hden),
    ← Nat.cast_mul, Nat.cast_le]
  have hexp : unitExponent q + 52 = (q.num.natAbs * 2 ^ 1074 / q.den).log2 := by
    unfold unitExponent at h ⊢
    omega
  have hlog : 2 ^ (unitExponent q + 52) ≤ q.num.natAbs * 2 ^ 1074 / q.den := by
    rw [hexp]
    exact Nat.log2_self_le fun h0 => by rw [h0] at hexp; simp at hexp
  rw [Nat.le_div_iff_mul_le q.den_pos] at hlog
  exact (by ring : 2 ^ 52 * (q.den * 2 ^ unitExponent q) = 2 ^ (unitExponent q + 52) * q.den).trans_le hlog

theorem unitCount_le (q : Rat) : unitCount q ≤ 2 ^ 53 := by
  have hnear := (abs_le.mp (isNearestEven_unitCount q).abs_sub_le).1
  have hlt := abs_div_unitOf_lt q
  rw [Int.cast_natCast] at hnear
  refine Nat.lt_add_one_iff.mp ((Nat.cast_lt (α := Rat)).mp ?_)
  push_cast
  linarith

theorem le_unitCount {q : Rat} (h : unitExponent q ≠ 0) : 2 ^ 52 ≤ unitCount q := by
  have hnear := (abs_le.mp (isNearestEven_unitCount q).abs_sub_le).2
  have hle := le_abs_div_unitOf h
  rw [Int.cast_natCast] at hnear
  refine Nat.lt_add_one_iff.mp ((Nat.cast_lt (α := Rat)).mp ?_)
  push_cast
  linarith

/-- The exponent of the unit from the exponent e of q. -/
theorem unitExponent_eq {q : Rat} {e : Int} (hlow : (2 : Rat) ^ e ≤ |q|) (hhigh : |q| < (2 : Rat) ^ (e + 1)) :
    unitExponent q = (e + 1022).toNat := by
  have hlt := (div_lt_iff₀ (unitOf_pos q)).mp (abs_div_unitOf_lt q)
  rw [← zpow_natCast, unitOf, ← zpow_add₀ two_ne_zero] at hlt
  have hmin := (zpow_lt_zpow_iff_right₀ one_lt_two).mp (hlow.trans_lt hlt)
  by_cases h0 : unitExponent q = 0
  · omega
  · have hle := (le_div_iff₀ (unitOf_pos q)).mp (le_abs_div_unitOf h0)
    rw [← zpow_natCast, unitOf, ← zpow_add₀ two_ne_zero] at hle
    have hmax := (zpow_lt_zpow_iff_right₀ one_lt_two).mp (hle.trans_lt hhigh)
    omega

theorem unitOf_eq {q : Rat} {e : Int} (hlow : (2 : Rat) ^ e ≤ |q|) (hhigh : |q| < (2 : Rat) ^ (e + 1)) :
    unitOf q = if -1022 ≤ e then (2 : Rat) ^ (e - 52) else (2 : Rat) ^ (-1074 : Int) := by
  unfold unitOf
  rw [unitExponent_eq hlow hhigh]
  split_ifs with he
  · congr 1
    omega
  · congr 1
    omega

/-! ### The pattern of a count of units -/

/-- A count m of units 2^k has the pattern k·2^52 + m: m's leading bit, and a round up to 2^53, carry into the exponent
field. -/
theorem magnitude_packSign (sign : Bool) {k m : Nat} (hm : m ≤ 2 ^ 53) (hk : k ≠ 0 → 2 ^ 52 ≤ m)
    (hfin : k * 2 ^ 52 + m < infinityBits) : magnitude (packSign sign (k * 2 ^ 52 + m)) = m * 2 ^ k := by
  unfold infinityBits at hfin
  unfold magnitude
  rw [expField_packSign _ (by omega), fracField_packSign _ (by omega)]
  by_cases hsub : m < 2 ^ 52
  · obtain rfl : k = 0 := by omega
    rw [if_pos (by omega)]
    omega
  rcases hm.lt_or_eq with hlt | rfl
  · rw [show (k * 2 ^ 52 + m) / 2 ^ 52 = k + 1 by omega, show (k * 2 ^ 52 + m) % 2 ^ 52 = m - 2 ^ 52 by omega,
      if_neg (Nat.succ_ne_zero k), Nat.add_sub_cancel, Nat.add_sub_cancel' (not_lt.mp hsub)]
  · rw [show (k * 2 ^ 52 + 2 ^ 53) / 2 ^ 52 = k + 2 by omega, show (k * 2 ^ 52 + 2 ^ 53) % 2 ^ 52 = 0 by omega,
      if_neg (Nat.succ_ne_zero _), Nat.add_zero, show k + 2 - 1 = k + 1 by omega]
    ring

/-- The pattern reaches the exponent field 2047 exactly when the number reaches 2^1024 (R113). -/
theorem infinityBits_le_iff {k m : Nat} (hm : m ≤ 2 ^ 53) (hk : k ≠ 0 → 2 ^ 52 ≤ m) :
    infinityBits ≤ k * 2 ^ 52 + m ↔ 2 ^ 2098 ≤ m * 2 ^ k := by
  unfold infinityBits
  constructor
  · intro h
    rcases (by omega : 2045 ≤ k ∧ 2 ^ 53 ≤ m ∨ 2046 ≤ k) with ⟨hlarge, hcarry⟩ | hlarge
    · calc 2 ^ 2098 ≤ 2 ^ (53 + k) := pow_le_pow_right₀ one_le_two (by omega)
        _ = 2 ^ 53 * 2 ^ k := pow_add 2 53 k
        _ ≤ m * 2 ^ k := Nat.mul_le_mul_right _ hcarry
    · calc 2 ^ 2098 ≤ 2 ^ (52 + k) := pow_le_pow_right₀ one_le_two (by omega)
        _ = 2 ^ 52 * 2 ^ k := pow_add 2 52 k
        _ ≤ m * 2 ^ k := Nat.mul_le_mul_right _ (hk (by omega))
  · contrapose!
    intro h
    rcases (by omega : k ≤ 2044 ∨ k ≤ 2045 ∧ m < 2 ^ 53) with hsmall | ⟨hsmall, hlt⟩
    · calc m * 2 ^ k ≤ 2 ^ 53 * 2 ^ k := Nat.mul_le_mul_right _ hm
        _ = 2 ^ (53 + k) := (pow_add 2 53 k).symm
        _ < 2 ^ 2098 := pow_lt_pow_right₀ one_lt_two (by omega)
    · calc m * 2 ^ k < 2 ^ 53 * 2 ^ k := Nat.mul_lt_mul_of_pos_right hlt (Nat.two_pow_pos k)
        _ = 2 ^ (53 + k) := (pow_add 2 53 k).symm
        _ ≤ 2 ^ 2098 := pow_le_pow_right₀ one_le_two (by omega)

/-! ### The value of a rounded result (R113) -/

/-- An integer from its sign and its magnitude. -/
def withSign (negative : Bool) (n : Nat) : Int := if negative then -n else n

theorem withSign_mul (negative : Bool) (m n : Nat) : withSign negative (m * n) = withSign negative m * n := by
  cases negative <;> simp [withSign]

theorem natAbs_withSign (negative : Bool) (n : Nat) : (withSign negative n).natAbs = n := by
  unfold withSign
  split_ifs <;> omega

theorem value_eq_withSign (p : Double) : value p = withSign (signBit p) (magnitude p) * 2 ^ (-1074 : Int) := by
  rw [value_eq, div_eq_mul_inv, zpow_neg, Nat.cast_pow, Nat.cast_ofNat]
  rfl

/-- Rounding to the nearest integer commutes with a change of sign. -/
theorem isNearestEven_withSign (q : Rat) : IsNearestEven (q / unitOf q) (withSign (decide (q < 0)) (unitCount q)) := by
  have h := isNearestEven_unitCount q
  unfold withSign
  by_cases hq : q < 0
  · rw [abs_of_neg hq, neg_div] at h
    rw [decide_eq_true hq, if_pos rfl]
    exact neg_neg (q / unitOf q) ▸ h.neg
  · rw [abs_of_nonneg (not_lt.mp hq)] at h
    rwa [decide_eq_false hq, if_neg Bool.false_ne_true]

theorem unitOf_eq_mul (q : Rat) : unitOf q = (2 ^ unitExponent q : Nat) * 2 ^ (-1074 : Int) := by
  rw [unitOf, sub_eq_add_neg, zpow_add₀ two_ne_zero, zpow_natCast, Nat.cast_pow, Nat.cast_ofNat]

/-- The rounded magnitude reaches 2^1024 exactly when its pattern reaches that of an infinity. -/
theorem overflow_iff (q : Rat) :
    (2 : Rat) ^ (1024 : Int) ≤ unitCount q * unitOf q ↔ infinityBits ≤ unitExponent q * 2 ^ 52 + unitCount q := by
  have hbound : (2 : Rat) ^ (1024 : Int) = (2 ^ 2098 : Nat) * 2 ^ (-1074 : Int) := by
    rw [Nat.cast_pow, Nat.cast_ofNat, ← zpow_natCast, ← zpow_add₀ two_ne_zero]
    congr 1
  rw [infinityBits_le_iff (unitCount_le q) le_unitCount, unitOf_eq_mul, hbound, ← mul_assoc,
    mul_le_mul_iff_left₀ (zpow_pos two_pos _), ← Nat.cast_mul, Nat.cast_le]

theorem fl_of_overflow {q : Rat} (h : (2 : Rat) ^ (1024 : Int) ≤ unitCount q * unitOf q) :
    fl q = packSign (decide (q < 0)) infinityBits := by
  rw [fl_eq_packSign, min_eq_right ((overflow_iff q).mp h)]

theorem fl_of_not_overflow {q : Rat} (h : ¬ (2 : Rat) ^ (1024 : Int) ≤ unitCount q * unitOf q) :
    isFinite (fl q) = true ∧ value (fl q) = withSign (decide (q < 0)) (unitCount q) * unitOf q
      ∧ signBit (fl q) = decide (q < 0) := by
  rw [overflow_iff, not_le] at h
  have hlt : unitExponent q * 2 ^ 52 + unitCount q < 2 ^ 63 := h.trans (by decide)
  rw [fl_eq_packSign, min_eq_left h.le]
  refine ⟨?_, ?_, signBit_packSign _ hlt⟩
  · unfold isFinite
    rw [expField_packSign _ hlt, bne_iff_ne]
    exact ((Nat.div_lt_iff_lt_mul (by decide)).mpr h).ne
  · rw [value_eq_withSign, signBit_packSign _ hlt, magnitude_packSign _ (unitCount_le q) le_unitCount h, withSign_mul,
      unitOf_eq_mul, Int.cast_mul, Int.cast_natCast, mul_assoc]

/-- `fl` by the definition of R113, for the integer m that the rule names. -/
theorem fl_rounds {q : Rat} {m : Int} (hm : IsNearestEven (q / unitOf q) m) :
    if (2 : Rat) ^ (1024 : Int) ≤ |m * unitOf q| then
      fl q = if q < 0 then 0xFFF0000000000000 else 0x7FF0000000000000
    else isFinite (fl q) = true ∧ value (fl q) = m * unitOf q ∧ (signBit (fl q) = true ↔ q < 0) := by
  obtain rfl : m = withSign (decide (q < 0)) (unitCount q) := hm.unique (isNearestEven_withSign q)
  rw [abs_mul, ← Int.cast_abs, Int.abs_eq_natAbs, natAbs_withSign, Int.cast_natCast, abs_of_pos (unitOf_pos q)]
  split_ifs with hover hneg
  · rw [fl_of_overflow hover, decide_eq_true hneg]
    decide
  · rw [fl_of_overflow hover, decide_eq_false hneg]
    decide
  · obtain ⟨hfin, hvalue, hsign⟩ := fl_of_not_overflow hover
    exact ⟨hfin, hvalue, by rw [hsign, decide_eq_true_iff]⟩

/-! ### The operations on finite operands (R115 to R117) -/

theorem isZero_eq_true_iff (p : Double) : isZero p = true ↔ value p = 0 := by
  rw [value_eq_zero_iff]
  unfold isZero magnitude
  rw [Bool.and_eq_true, beq_iff_eq, beq_iff_eq]
  split_ifs with hexp <;> simp [hexp]

theorem isZero_eq_false_iff (p : Double) : isZero p = false ↔ value p ≠ 0 := by
  rw [← Bool.not_eq_true, isZero_eq_true_iff]

theorem isZero_signedZero (sign : Bool) : isZero (signedZero sign) = true := by
  cases sign <;> decide

theorem signBit_signedZero (sign : Bool) : signBit (signedZero sign) = sign :=
  signBit_packSign sign (by decide)

/-- The zero with the sign bit set is -0.0 (R112). -/
theorem eq_negativeZero_iff (p : Double) : p = 0x8000000000000000 ↔ isZero p = true ∧ signBit p = true := by
  constructor
  · rintro rfl
    decide
  · rintro ⟨hzero, hsign⟩
    unfold isZero at hzero
    rw [Bool.and_eq_true, beq_iff_eq, beq_iff_eq, ← low_bits_eq_zero, ← BitVec.toNat_inj,
      BitVec.extractLsb'_toNat] at hzero
    have hlow : p.toNat % 2 ^ 63 = 0 := by simpa using hzero
    unfold signBit BitVec.getLsbD at hsign
    rw [Nat.testBit_eq_decide_div_mod_eq, decide_eq_true_iff] at hsign
    have hlt := p.isLt
    exact BitVec.eq_of_toNat_eq (by omega : p.toNat = 2 ^ 63)

section finite

variable {a b : Double} (ha : isFinite a = true) (hb : isFinite b = true)
include ha hb

theorem fmul_of_isFinite :
    fmul a b = if isZero a || isZero b then signedZero (signBit a != signBit b) else fl (value a * value b) := by
  unfold fmul
  simp only [isNaN_of_isFinite ha, isNaN_of_isFinite hb, isInfinite_of_isFinite ha, isInfinite_of_isFinite hb,
    Bool.and_false, Bool.false_and, Bool.or_false, Bool.false_eq_true, if_false]

theorem fadd_of_isFinite :
    fadd a b = if value a + value b = 0 then signedZero (isZero a && isZero b && signBit a && signBit b)
      else fl (value a + value b) := by
  unfold fadd
  simp only [isNaN_of_isFinite ha, isNaN_of_isFinite hb, isInfinite_of_isFinite ha, isInfinite_of_isFinite hb,
    Bool.false_and, Bool.or_false, Bool.false_eq_true, if_false]

theorem fdiv_of_isFinite (hdivisor : value b ≠ 0) :
    fdiv a b = if isZero a then signedZero (signBit a != signBit b) else fl (value a / value b) := by
  unfold fdiv
  rw [ha, hb, (isZero_eq_false_iff b).mpr hdivisor, Bool.not_false, Bool.and_self, Bool.and_self, if_pos rfl]

/-- A product of finite operands that is 0 has a zero operand, and its zero has the exclusive-or sign. -/
theorem fmul_of_mul_eq_zero (h : value a * value b = 0) : fmul a b = signedZero (signBit a != signBit b) := by
  rw [fmul_of_isFinite ha hb, if_pos]
  rw [Bool.or_eq_true, isZero_eq_true_iff, isZero_eq_true_iff]
  exact mul_eq_zero.mp h

theorem fmul_of_mul_ne_zero (h : value a * value b ≠ 0) : fmul a b = fl (value a * value b) := by
  rw [fmul_of_isFinite ha hb, if_neg]
  rw [Bool.or_eq_true, isZero_eq_true_iff, isZero_eq_true_iff]
  exact fun hzero => h (mul_eq_zero.mpr hzero)

theorem fadd_of_add_eq_zero (h : value a + value b = 0) :
    fadd a b = if a = 0x8000000000000000 ∧ b = 0x8000000000000000 then 0x8000000000000000 else 0x0000000000000000 := by
  rw [fadd_of_isFinite ha hb, if_pos h]
  split_ifs with hneg
  · obtain ⟨rfl, rfl⟩ := hneg
    decide
  · rw [eq_negativeZero_iff, eq_negativeZero_iff] at hneg
    have hsign : (isZero a && isZero b && signBit a && signBit b) = false := by grind
    rw [hsign]
    rfl

end finite

/-- Settles O36: `fl` by the definition of R113, and each operation by the class of its exact result. -/
theorem flRoundsToNearestTiesToEven : Obligations.FlRoundsToNearestTiesToEven := by
  refine ⟨fun q e hlow hhigh => ?rounds, by decide +kernel, fun a b ha hb => ⟨fmul_of_mul_ne_zero ha hb,
    fun hzero => ?product, fun hsum => ?sum, fadd_of_add_eq_zero ha hb, fun hdividend hdivisor => ?quotient,
    fun hzero hdivisor => ?zero⟩⟩
  case rounds =>
    rw [← unitOf_eq hlow hhigh]
    exact fun m hm => fl_rounds hm
  case product =>
    rw [fmul_of_mul_eq_zero ha hb hzero]
    exact ⟨isZero_signedZero _, signBit_signedZero _⟩
  case sum => rw [fadd_of_isFinite ha hb, if_neg hsum]
  case quotient => rw [fdiv_of_isFinite ha hb hdivisor, (isZero_eq_false_iff a).mpr hdividend, if_neg Bool.false_ne_true]
  case zero =>
    rw [fdiv_of_isFinite ha hb hdivisor, (isZero_eq_true_iff a).mpr hzero, if_pos rfl]
    exact ⟨isZero_signedZero _, signBit_signedZero _⟩

end Sys2Proof.Proofs
end

section
/-! PROOFS. Exact results and the error of a rounded one (R113 to R117). -/

namespace Sys2Proof.Proofs

open Sys2Proof.Machine

/-! ### The unit of a bounded number -/

/-- The unit of a number below 2^(e+53) is at most 2^e. -/
theorem unitExponent_le {q : Rat} {e : Int} (he : -1074 ≤ e) (hq : |q| < (2 : Rat) ^ (e + 53)) :
    (unitExponent q : Int) ≤ e + 1074 := by
  by_cases h0 : unitExponent q = 0
  · omega
  have hle := (le_div_iff₀ (unitOf_pos q)).mp (le_abs_div_unitOf h0)
  rw [← zpow_natCast, unitOf, ← zpow_add₀ two_ne_zero] at hle
  have hexp := (zpow_lt_zpow_iff_right₀ one_lt_two).mp (hle.trans_lt hq)
  omega

theorem unitOf_le {q : Rat} {e : Int} (he : -1074 ≤ e) (hq : |q| < (2 : Rat) ^ (e + 53)) : unitOf q ≤ 2 ^ e := by
  have hexp := unitExponent_le he hq
  exact zpow_le_zpow_right₀ one_le_two (by omega)

/-! ### Results that do not overflow -/

section bounded

variable {q : Rat} (hq : |q| < (2 : Rat) ^ (1023 : Int))
include hq

/-- At most 2^53 units of at most 2^970 stay below 2^1024. -/
theorem not_overflow_of_abs_lt : ¬ (2 : Rat) ^ (1024 : Int) ≤ unitCount q * unitOf q := by
  have hunit : unitOf q ≤ 2 ^ (970 : Int) := unitOf_le (by norm_num) hq
  have hcount : (unitCount q : Rat) ≤ 2 ^ (53 : Int) := by exact_mod_cast unitCount_le q
  rw [not_le]
  calc (unitCount q : Rat) * unitOf q ≤ 2 ^ (53 : Int) * 2 ^ (970 : Int) :=
        mul_le_mul hcount hunit (unitOf_pos q).le (by positivity)
    _ = 2 ^ (1023 : Int) := by rw [← zpow_add₀ two_ne_zero]; norm_num
    _ < 2 ^ (1024 : Int) := zpow_lt_zpow_right₀ one_lt_two (by norm_num)

theorem isFinite_fl : isFinite (fl q) = true := (fl_of_not_overflow (not_overflow_of_abs_lt hq)).1

/-- The rounded value is the nearest number of units. -/
theorem value_fl_eq_mul_unitOf {m : Int} (hm : IsNearestEven (q / unitOf q) m) : value (fl q) = m * unitOf q := by
  obtain rfl : m = withSign (decide (q < 0)) (unitCount q) := hm.unique (isNearestEven_withSign q)
  obtain ⟨-, hvalue, -⟩ := fl_of_not_overflow (not_overflow_of_abs_lt hq)
  exact hvalue

/-- Rounding moves a number by half a unit at most. -/
theorem abs_value_fl_sub_le : |value (fl q) - q| ≤ unitOf q / 2 := by
  have hnear := isNearestEven_withSign q
  have hpos := unitOf_pos q
  have hsub : value (fl q) - q = -((q / unitOf q - withSign (decide (q < 0)) (unitCount q)) * unitOf q) := by
    rw [value_fl_eq_mul_unitOf hq hnear, sub_mul, div_mul_cancel₀ _ hpos.ne', neg_sub]
  rw [hsub, abs_neg, abs_mul, abs_of_pos hpos]
  linarith [mul_le_mul_of_nonneg_right hnear.abs_sub_le hpos.le]

/-- A whole number of units is its own rounding: every number M·2^e with |M| below 2^53 that is in range. -/
theorem value_fl_of_eq_mul_zpow {M e : Int} (hM : |M| < 2 ^ 53) (he : -1074 ≤ e) (hqM : q = M * 2 ^ e) :
    value (fl q) = q := by
  have hM' : |(M : Rat)| < 2 ^ (53 : Int) := by exact_mod_cast hM
  have hlt : |q| < (2 : Rat) ^ (e + 53) := by
    have hpos : (0 : Rat) < 2 ^ e := zpow_pos two_pos e
    rw [hqM, abs_mul, abs_of_pos hpos, mul_comm, zpow_add₀ two_ne_zero]
    exact mul_lt_mul_of_pos_left hM' hpos
  have hexp := unitExponent_le he hlt
  have hcount : q = (M * 2 ^ (e + 1074 - unitExponent q).toNat : Int) * unitOf q := by
    rw [unitOf, Int.cast_mul, mul_assoc, Int.cast_pow, Int.cast_ofNat, ← zpow_natCast, ← zpow_add₀ two_ne_zero]
    rw [Int.toNat_of_nonneg (by omega), show e + 1074 - (unitExponent q : Int) + (unitExponent q - 1074) = e by ring]
    exact hqM
  rw [value_fl_eq_mul_unitOf hq (m := M * 2 ^ (e + 1074 - unitExponent q).toNat) ?_, ← hcount]
  left
  rw [(div_eq_iff (unitOf_pos q).ne').mpr hcount, sub_self]
  norm_num

/-- The rounding of a number that is not positive is not positive. -/
theorem value_fl_nonpos (hneg : q ≤ 0) : value (fl q) ≤ 0 := by
  have hnear := isNearestEven_withSign q
  have hquotient := div_nonpos_of_nonpos_of_nonneg hneg (unitOf_pos q).le
  have hle := (abs_le.mp hnear.abs_sub_le).1
  have hcount : withSign (decide (q < 0)) (unitCount q) ≤ 0 :=
    Int.lt_add_one_iff.mp ((Int.cast_lt (R := Rat)).mp (by push_cast; linarith))
  rw [value_fl_eq_mul_unitOf hq hnear]
  exact mul_nonpos_of_nonpos_of_nonneg (by exact_mod_cast hcount) (unitOf_pos q).le

end bounded

/-! ### Integers (R114) -/

section integers

variable {n : Int} (hn : |n| < 2 ^ 53)
include hn

theorem abs_intCast_lt : |(n : Rat)| < (2 : Rat) ^ (1023 : Int) := by
  have hlt : |(n : Rat)| < 2 ^ (53 : Int) := by exact_mod_cast hn
  exact hlt.trans (zpow_lt_zpow_right₀ one_lt_two (by norm_num))

theorem value_fl_intCast : value (fl n) = n :=
  value_fl_of_eq_mul_zpow (abs_intCast_lt hn) hn (by norm_num : (-1074 : Int) ≤ 0) (by rw [zpow_zero, mul_one])

theorem ofInt_eq_fl : ofInt n = fl n := if_pos (by rw [Int.abs_eq_natAbs] at hn; omega)

theorem isFinite_ofInt : isFinite (ofInt n) = true := by
  rw [ofInt_eq_fl hn]
  exact isFinite_fl (abs_intCast_lt hn)

theorem value_ofInt : value (ofInt n) = n := by
  rw [ofInt_eq_fl hn]
  exact value_fl_intCast hn

end integers

/-! ### Products and quotients, zero or not -/

theorem isFinite_signedZero (sign : Bool) : isFinite (signedZero sign) = true := by cases sign <;> decide

theorem value_signedZero (sign : Bool) : value (signedZero sign) = 0 :=
  (isZero_eq_true_iff _).mp (isZero_signedZero sign)

section quotients

variable {a b : Double} (ha : isFinite a = true) (hb : isFinite b = true)
include ha hb

/-- A product of bounded size is finite, and its value is the rounded product also where the operation answers a signed
zero. -/
theorem fmul_rounds (hq : |value a * value b| < (2 : Rat) ^ (1023 : Int)) :
    isFinite (fmul a b) = true ∧ value (fmul a b) = value (fl (value a * value b)) := by
  by_cases h : value a * value b = 0
  · rw [fmul_of_mul_eq_zero ha hb h, h]
    exact ⟨isFinite_signedZero _, (value_signedZero _).trans (value_fl_intCast (n := 0) (by norm_num)).symm⟩
  · rw [fmul_of_mul_ne_zero ha hb h]
    exact ⟨isFinite_fl hq, rfl⟩

theorem fdiv_rounds (hdivisor : value b ≠ 0) (hq : |value a / value b| < (2 : Rat) ^ (1023 : Int)) :
    isFinite (fdiv a b) = true ∧ value (fdiv a b) = value (fl (value a / value b)) := by
  rw [fdiv_of_isFinite ha hb hdivisor]
  split_ifs with h
  · rw [isZero_eq_true_iff] at h
    rw [h, zero_div]
    exact ⟨isFinite_signedZero _, (value_signedZero _).trans (value_fl_intCast (n := 0) (by norm_num)).symm⟩
  · exact ⟨isFinite_fl hq, rfl⟩

end quotients

end Sys2Proof.Proofs
end

section
/-! PROOFS. The counts of a histogram (R155). -/

namespace Sys2Proof.Proofs

open Sys2Proof.Machine

theorem countP_toNat_lt_succ (samples : List Byte) (n : Nat) :
    (samples.countP fun b => decide (b.toNat < n + 1))
      = (samples.countP fun b => decide (b.toNat < n)) + samples.countP fun b => b.toNat == n := by
  induction samples with
  | nil => rfl
  | cons b samples ih =>
    simp only [List.countP_cons, ih, decide_eq_true_eq, beq_iff_eq]
    split_ifs <;> omega

/-- Adding up the counts of the intensities below n counts the samples below n. -/
theorem sum_countP_range (samples : List Byte) (n : Nat) :
    ((List.range n).map fun v => samples.countP fun b => b.toNat == v).sum
      = samples.countP fun b => decide (b.toNat < n) := by
  induction n with
  | zero => simp
  | succ n ih =>
    rw [List.range_succ, List.map_append, List.sum_append, ih, List.map_singleton,
      List.sum_singleton, countP_toNat_lt_succ]

theorem cumulative_histogram (samples : List Byte) (i : Nat) :
    cumulative (histogram samples) i = samples.countP fun b => decide (b.toNat < min (i + 1) 256) := by
  unfold cumulative histogram
  rw [← List.map_take, List.take_range, sum_countP_range]

theorem cumulative_histogram_le (samples : List Byte) (i : Nat) :
    cumulative (histogram samples) i ≤ samples.length := by
  rw [cumulative_histogram]
  exact List.countP_le_length

end Sys2Proof.Proofs
end

section
/-! PROOFS. The equalizer's table in integers (R156). -/

namespace Sys2Proof.Proofs

open Sys2Proof.Machine

/-! ### The rounded quotient beside a half-integer (R156) -/

section quotient

variable {a b : Int} (hpos : 0 < a) (hle : a ≤ b) (hbound : b ≤ 2 ^ 32)
include hpos hle hbound

theorem quotient_lt : |255 * (a : Rat) / b| < 2 ^ (8 : Int) := by
  have hb : (0 : Rat) < b := by exact_mod_cast hpos.trans_le hle
  rw [abs_of_pos (by positivity), div_lt_iff₀ hb]
  exact_mod_cast (by omega : 255 * a < 2 ^ 8 * b)

/-- The error of the quotient is less than 1/(2b), the least distance of 255·a/b from a half-integer that it does not meet. -/
theorem abs_value_fl_quotient_sub_lt : |value (fl (255 * (a : Rat) / b)) - 255 * a / b| < 1 / (2 * b) := by
  have hb : (0 : Rat) < b := by exact_mod_cast hpos.trans_le hle
  have hb' : (b : Rat) ≤ 2 ^ 32 := by exact_mod_cast hbound
  have hlt := quotient_lt hpos hle hbound
  have hunit : unitOf (255 * (a : Rat) / b) ≤ 2 ^ (-45 : Int) := unitOf_le (by norm_num) hlt
  calc |value (fl (255 * (a : Rat) / b)) - 255 * a / b| ≤ unitOf (255 * (a : Rat) / b) / 2 :=
        abs_value_fl_sub_le (hlt.trans (zpow_lt_zpow_right₀ one_lt_two (by norm_num)))
    _ ≤ 2 ^ (-45 : Int) / 2 := by linarith
    _ < 1 / (2 * 2 ^ 32) := by norm_num
    _ ≤ 1 / (2 * b) := one_div_le_one_div_of_le (by linarith) (by linarith)

/-- Below a half-integer M/2 the quotient stays below when it is rounded. -/
theorem value_fl_quotient_lt {M : Int} (h : 510 * a < M * b) : value (fl (255 * (a : Rat) / b)) < M / 2 := by
  have hb : (0 : Rat) < b := by exact_mod_cast hpos.trans_le hle
  have hgap : 255 * (a : Rat) / b + 1 / (2 * b) ≤ M / 2 := by
    have h' : 510 * (a : Rat) + 1 ≤ M * b := by exact_mod_cast h
    rw [show 255 * (a : Rat) / b + 1 / (2 * b) = (510 * a + 1) / b / 2 by field_simp; ring]
    linarith [(div_le_iff₀ hb).mpr h']
  linarith [(abs_lt.mp (abs_value_fl_quotient_sub_lt hpos hle hbound)).2]

/-- At a half-integer M/2 the quotient is exact, and above one it stays above when it is rounded. -/
theorem le_value_fl_quotient {M : Int} (hM : |M| < 2 ^ 53) (h : M * b ≤ 510 * a) :
    M / 2 ≤ value (fl (255 * (a : Rat) / b)) := by
  have hb : (0 : Rat) < b := by exact_mod_cast hpos.trans_le hle
  rcases h.eq_or_lt with htie | hlt
  · have hhalf : 255 * (a : Rat) / b = M * 2 ^ (-1 : Int) := by
      have htie' : (M : Rat) * b = 510 * a := by exact_mod_cast htie
      rw [div_eq_iff hb.ne', zpow_neg_one]
      linarith
    have hlt := (quotient_lt hpos hle hbound).trans (zpow_lt_zpow_right₀ one_lt_two (by norm_num : (8 : Int) < 1023))
    rw [value_fl_of_eq_mul_zpow hlt hM (by norm_num) hhalf, hhalf, zpow_neg_one, div_eq_mul_inv]
  · have hgap : M / 2 + 1 / (2 * b) ≤ 255 * (a : Rat) / b := by
      have h' : (M : Rat) * b + 1 ≤ 510 * a := by exact_mod_cast hlt
      rw [show 255 * (a : Rat) / b = 510 * a / b / 2 by ring, show 1 / (2 * (b : Rat)) = 1 / b / 2 by ring]
      have := (le_div_iff₀ hb).mpr (show ((M : Rat) + 1 / b) * b ≤ 510 * a by rwa [add_mul, one_div_mul_cancel hb.ne'])
      linarith
    linarith [(abs_lt.mp (abs_value_fl_quotient_sub_lt hpos hle hbound)).1]

end quotient

/-! ### A table entry (R155) -/

/-- A number nearest to the sample k, or halfway below it, becomes k. -/
theorem toNat_clampRound_eq {f : Double} (hf : isFinite f = true) {k : Int} (h0 : 0 ≤ k) (h255 : k ≤ 255)
    (hlow : (2 * k - 1 : Int) / 2 ≤ value f) (hhigh : value f < (2 * k + 1 : Int) / 2) :
    ((clampRound f).toNat : Int) = k := by
  push_cast at hlow hhigh
  rw [toNat_clampRound_eq_saturated hf]
  by_cases hneg : value f < 1 / 2
  · have hround := roundHalfAway_nonpos hneg
    have hk : k < 1 := by exact_mod_cast (by linarith : (k : Rat) < 1)
    omega
  · have hround : roundHalfAway (value f) = k :=
      (if_pos (by linarith)).trans (Int.floor_eq_iff.mpr ⟨by linarith, by linarith⟩)
    omega

theorem toNat_clampRound_of_nonpos {f : Double} (hf : isFinite f = true) (h : value f ≤ 0) :
    (clampRound f).toNat = 0 := by
  rw [clampRound_of_isFinite hf, if_pos (by linarith)]
  rfl

theorem isFinite_double255 : isFinite double255 = true := by decide

theorem value_double255 : value double255 = 255 := by decide +kernel

/-- The operand of `clamp_round` in a table entry, with a for cum[i] - hmin and b for N - hmin. -/
def tableQuotient (a b : Int) : Double := fdiv (fmul double255 (ofInt a)) (ofInt b)

/-- Both integers and the product are exact, so the quotient is rounded once. -/
theorem tableQuotient_rounds {a b : Int} (ha : |a| ≤ 2 ^ 32) (hb : 0 < b) (hbound : b ≤ 2 ^ 32) :
    |255 * (a : Rat) / b| < (2 : Rat) ^ (1023 : Int) ∧ isFinite (tableQuotient a b) = true
      ∧ value (tableQuotient a b) = value (fl (255 * (a : Rat) / b)) := by
  have ha53 : |a| < 2 ^ 53 := by omega
  have hb53 : |b| < 2 ^ 53 := by rw [abs_of_pos hb]; omega
  have hp53 : |255 * a| < 2 ^ 53 := by rw [abs_mul, abs_of_pos (by norm_num : (0 : Int) < 255)]; omega
  have hdivisor : value (ofInt b) = b := value_ofInt hb53
  have hexact : value double255 * value (ofInt a) = (255 * a : Int) := by
    rw [value_double255, value_ofInt ha53, Int.cast_mul, Int.cast_ofNat]
  obtain ⟨hfin, hproduct⟩ := fmul_rounds isFinite_double255 (isFinite_ofInt ha53)
    (by rw [hexact]; exact abs_intCast_lt hp53)
  rw [hexact, value_fl_intCast hp53, Int.cast_mul, Int.cast_ofNat] at hproduct
  have hb1 : (1 : Rat) ≤ |(b : Rat)| := by rw [← Int.cast_abs]; exact_mod_cast Int.one_le_abs hb.ne'
  have hrange : |255 * (a : Rat) / b| < (2 : Rat) ^ (1023 : Int) := by
    have hp := abs_intCast_lt hp53
    rw [Int.cast_mul, Int.cast_ofNat] at hp
    exact (abs_div _ _).trans_lt ((div_le_self (abs_nonneg _) hb1).trans_lt hp)
  have hquotient := fdiv_rounds hfin (isFinite_ofInt hb53) (by rw [hdivisor]; exact_mod_cast hb.ne')
  rw [hproduct, hdivisor] at hquotient
  exact ⟨hrange, hquotient hrange⟩

/-- The integer form of R156: rounding half up of 255·a/b, and 0 where a is not positive. -/
theorem toNat_clampRound_tableQuotient {a b : Int} (ha : -2 ^ 32 ≤ a) (hle : a ≤ b) (hb : 0 < b) (hbound : b ≤ 2 ^ 32) :
    ((clampRound (tableQuotient a b)).toNat : Int) = if a ≤ 0 then 0 else (510 * a + b) / (2 * b) := by
  obtain ⟨hrange, hfin, hvalue⟩ := tableQuotient_rounds (abs_le.mpr ⟨ha, hle.trans hbound⟩) hb hbound
  split_ifs with hneg
  · have hquotient : 255 * (a : Rat) / b ≤ 0 :=
      div_nonpos_of_nonpos_of_nonneg (by exact_mod_cast (by omega : 255 * a ≤ 0)) (by exact_mod_cast hb.le)
    rw [toNat_clampRound_of_nonpos hfin (hvalue.trans_le (value_fl_nonpos hrange hquotient)), Nat.cast_zero]
  · have hpos : 0 < a := not_le.mp hneg
    have h0 : 0 ≤ (510 * a + b) / (2 * b) := Int.ediv_nonneg (by omega) (by omega)
    have h255 : (510 * a + b) / (2 * b) < 256 := Int.ediv_lt_of_lt_mul (by omega) (by omega)
    have hfloor := Int.mul_ediv_add_emod (510 * a + b) (2 * b)
    have hmod0 := Int.emod_nonneg (510 * a + b) (by omega : 2 * b ≠ 0)
    have hmod := Int.emod_lt_of_pos (510 * a + b) (by omega : 0 < 2 * b)
    generalize (510 * a + b) / (2 * b) = k at *
    refine toNat_clampRound_eq hfin h0 (by omega) ?_ ?_
    · rw [hvalue]
      exact le_value_fl_quotient hpos hle hbound (abs_lt.mpr (by omega)) (by linarith)
    · rw [hvalue]
      exact value_fl_quotient_lt hpos hle hbound (by linarith)

theorem equalizeEntry_eq (hist : List Nat) (n : Nat) {i : Nat} (hi : i ≠ 0) :
    equalizeEntry hist n i = clampRound (tableQuotient ((cumulative hist i : Int) - darkestCount hist)
      ((n : Int) - darkestCount hist)) := if_neg hi

/-- Settles O42: cum[i] and hmin are counts of at most 2^32 samples, so the integer form of the quotient applies. -/
theorem equalizerTableHasAnIntegerForm : Obligations.EqualizerTableHasAnIntegerForm := by
  intro samples hlength hist N hmin hne i hi _
  have hcum : cumulative hist i ≤ N := cumulative_histogram_le samples i
  have hmin_lt : hmin < N := (cumulative_histogram_le samples (darkest hist)).lt_of_ne hne.symm
  have hN : N ≤ 2 ^ 32 := hlength
  have hentry := toNat_clampRound_tableQuotient (a := (cumulative hist i : Int) - hmin) (b := (N : Int) - hmin)
    (by omega) (by omega) (by omega) (by omega)
  rw [← equalizeEntry_eq hist N (by omega)] at hentry
  rw [← Int.natCast_inj, hentry]
  split_ifs with hneg hcum_le hcum_le
  · rfl
  · omega
  · omega
  · push_cast [Nat.cast_sub hmin_lt.le, Nat.cast_sub (not_le.mp hcum_le).le]
    rfl

end Sys2Proof.Proofs
end

section
/-! PROOFS. Sums and products of integers in binary64 are exact below 2^53 (R114 to R116). -/

namespace Sys2Proof.Proofs

open Sys2Proof.Machine

/-- A finite pattern whose value is the integer n. The sign of a zero is left open. -/
structure StandsFor (p : Double) (n : Int) : Prop where
  finite : isFinite p = true
  value_eq : value p = n

theorem standsFor_ofInt {n : Int} (hn : |n| < 2 ^ 53) : StandsFor (ofInt n) n := ⟨isFinite_ofInt hn, value_ofInt hn⟩

theorem standsFor_of_isZero {p : Double} (hfin : isFinite p = true) (hzero : isZero p = true) : StandsFor p 0 :=
  ⟨hfin, ((isZero_eq_true_iff p).mp hzero).trans Int.cast_zero.symm⟩

theorem standsFor_signedZero (sign : Bool) : StandsFor (signedZero sign) 0 :=
  standsFor_of_isZero (isFinite_signedZero sign) (isZero_signedZero sign)

theorem standsFor_doubleOne : StandsFor doubleOne 1 := ⟨by decide, by decide +kernel⟩

theorem standsFor_fl {n : Int} (hn : |n| < 2 ^ 53) : StandsFor (fl n) n :=
  ⟨isFinite_fl (abs_intCast_lt hn), value_fl_intCast hn⟩

namespace StandsFor

variable {p q : Double} {m n : Int}

theorem fmul (hp : StandsFor p m) (hq : StandsFor q n) (h : |m * n| < 2 ^ 53) : StandsFor (fmul p q) (m * n) := by
  have hexact : value p * value q = (m * n : Int) := by rw [hp.value_eq, hq.value_eq, Int.cast_mul]
  obtain ⟨hfin, hvalue⟩ := fmul_rounds hp.finite hq.finite (by rw [hexact]; exact abs_intCast_lt h)
  exact ⟨hfin, by rw [hvalue, hexact, value_fl_intCast h]⟩

/-- Also where the sum is 0, whichever zero the operation answers. -/
theorem fadd (hp : StandsFor p m) (hq : StandsFor q n) (h : |m + n| < 2 ^ 53) : StandsFor (fadd p q) (m + n) := by
  have hexact : value p + value q = (m + n : Int) := by rw [hp.value_eq, hq.value_eq, Int.cast_add]
  rw [fadd_of_isFinite hp.finite hq.finite, hexact]
  split_ifs with hzero
  · rw [Int.cast_eq_zero.mp hzero]
    exact standsFor_signedZero _
  · exact standsFor_fl h

/-- `clamp_round` gives back the sample that a pattern stands for (R118). -/
theorem clampRound_eq {b : Byte} (h : StandsFor p b.toNat) : clampRound p = b := by
  have hbyte := b.isLt
  refine BitVec.eq_of_toNat_eq (Int.natCast_inj.mp (toNat_clampRound_eq h.finite (by omega) (by omega) ?_ ?_))
  all_goals
    rw [h.value_eq]
    push_cast
    linarith

end StandsFor

end Sys2Proof.Proofs
end

section
/-! PROOFS. The identity kernel of CONV3 (R181). -/

namespace Sys2Proof.Proofs

open Sys2Proof.Machine

/-! ### The accumulator (R180) -/

theorem standsFor_ofInt_byte (b : Byte) : StandsFor (ofInt b.toNat) b.toNat :=
  standsFor_ofInt (abs_lt.mpr (by have := b.isLt; omega))

/-- A term whose weight is the integer k adds k times the sample, exactly. -/
theorem standsFor_accumulate {acc w : Double} {m k : Int} {b : Byte} (hacc : StandsFor acc m) (hw : StandsFor w k)
    (hproduct : |k * b.toNat| < 2 ^ 53) (hsum : |m + k * b.toNat| < 2 ^ 53) :
    StandsFor (accumulate acc (w, b)) (m + k * b.toNat) :=
  hacc.fadd (hw.fmul (standsFor_ofInt_byte b) hproduct) hsum

/-- Terms whose weights are zeros of either sign leave the accumulated integer alone. -/
theorem standsFor_foldl_of_zero_weights {acc : Double} {m : Int} (hm : |m| < 2 ^ 53) (hacc : StandsFor acc m)
    {weights : List Double} (hzero : ∀ w ∈ weights, StandsFor w 0) (samples : List Byte) :
    StandsFor ((weights.zip samples).foldl accumulate acc) m := by
  induction weights generalizing acc samples with
  | nil => exact hacc
  | cons w weights ih =>
    obtain ⟨hw, hrest⟩ := List.forall_mem_cons.mp hzero
    cases samples with
    | nil => exact hacc
    | cons b samples =>
      have hstep := standsFor_accumulate (b := b) hacc hw (by simp) (by simpa using hm)
      rw [zero_mul, add_zero] at hstep
      exact ih hstep hrest samples

/-- With one weight 1.0 and zeros before and after it, the accumulator ends at the sample of that weight. -/
theorem standsFor_convolve_of_unit_weight {before after : List Double} {w : Double}
    {lefts rights : List Byte} {b : Byte} (hlength : before.length = lefts.length)
    (hbefore : ∀ v ∈ before, StandsFor v 0) (hw : StandsFor w 1) (hafter : ∀ v ∈ after, StandsFor v 0) :
    StandsFor (convolve (before ++ w :: after) (lefts ++ b :: rights)) b.toNat := by
  have hbyte : |(b.toNat : Int)| < 2 ^ 53 := abs_lt.mpr (by have := b.isLt; omega)
  have hleft := standsFor_foldl_of_zero_weights (by norm_num) (standsFor_signedZero false) hbefore lefts
  have hcentre := standsFor_accumulate (b := b) hleft hw (by simpa using hbyte) (by simpa using hbyte)
  rw [one_mul, zero_add] at hcentre
  unfold convolve
  rw [List.zip_append hlength, List.foldl_append, List.zip_cons_cons, List.foldl_cons]
  exact standsFor_foldl_of_zero_weights hbyte hcentre hafter rights

/-! ### The centre of a neighbourhood (R66, R69) -/

/-- Inside the image nothing is clamped. -/
theorem sample_of_lt (s : State) (a : Nat) {W H x y : Nat} (hx : x < W) (hy : y < H) :
    s.sample a W H x y = s.readByte (a + y * W + x) := by
  unfold State.sample
  rw [max_eq_left (Int.natCast_nonneg x), max_eq_left (Int.natCast_nonneg y), min_eq_left (by omega),
    min_eq_left (by omega)]
  rfl

/-- The fifth of the nine reads, the one that K4 weighs, is at the pixel itself. -/
theorem neighbourhood_eq_append (s : State) (a W H : Nat) (x y : Int) :
    s.neighbourhood a W H x y
      = (s.neighbourhood a W H x y).take 4 ++ s.sample a W H x y :: (s.neighbourhood a W H x y).drop 5 := by
  simp [State.neighbourhood]

/-- The centre of the neighbourhood of pixel p is the source sample at p. -/
theorem sample_pixel {s : State} {p : Nat} (h : p < s.pixelCount) :
    s.sample s.src.toNat s.width.toNat s.height.toNat (p % s.width.toNat : Nat) (p / s.width.toNat : Nat)
      = s.sourceByte p := by
  unfold State.pixelCount at h
  have hwidth : 0 < s.width.toNat := Nat.pos_of_mul_pos_right (Nat.zero_lt_of_lt h)
  rw [sample_of_lt s _ (Nat.mod_lt p hwidth) (Nat.div_lt_of_lt_mul h), Nat.add_assoc, Nat.div_add_mod']
  rfl

/-! ### The identity kernel (R181) -/

theorem standsFor_zero_pattern {w : Double} (h : w = 0x0000000000000000#64 ∨ w = 0x8000000000000000#64) :
    StandsFor w 0 := by
  rcases h with rfl | rfl
  · exact standsFor_of_isZero (by decide) (by decide)
  · exact standsFor_of_isZero (by decide) (by decide)

theorem weights_eq_append (k : Kernel) :
    k.weights = [k.k0, k.k1, k.k2, k.k3].map Reg64.double ++ k.k4.double :: [k.k5, k.k6, k.k7, k.k8].map Reg64.double :=
  rfl

/-- Settles O54: every term but the centre's adds an exact zero. -/
theorem identityKernelCopiesTheImage : Obligations.IdentityKernelCopiesTheImage := by
  intro s h hcentre hzero
  have hweights : ∀ w ∈ ([s.kernel.k0, s.kernel.k1, s.kernel.k2, s.kernel.k3]
      ++ [s.kernel.k5, s.kernel.k6, s.kernel.k7, s.kernel.k8]).map Reg64.double, StandsFor w 0 :=
    List.forall_mem_map.mpr fun k hk => standsFor_zero_pattern (hzero k hk)
  rw [List.map_append, List.forall_mem_append] at hweights
  obtain ⟨hbefore, hafter⟩ := hweights
  have hunit : StandsFor s.kernel.k4.double 1 := by
    rw [show s.kernel.k4.double = doubleOne from hcentre]
    exact standsFor_doubleOne
  refine ⟨_, exec_conv3_accepted h, fun p hp => ?_⟩
  rw [readByte_destination _ hp, weights_eq_append, State.sourceNeighbourhood, neighbourhood_eq_append, sample_pixel hp]
  exact (standsFor_convolve_of_unit_weight rfl hbefore hunit hafter).clampRound_eq

end Sys2Proof.Proofs
end

section
/-! PROOFS. The operations of the host (R210, R213 to R215): one rule for the step of each, and what that operation leaves in
the state. -/

namespace Sys2Proof.Proofs

open Sys2Proof.Machine

/-! ### The step of each operation -/

section steps

variable {s : State} {rest : List Input}

theorem step_regRead {off : Nat} (h : s.inputs = .regRead off :: rest) (haligned : off % 4 = 0) :
    step s = .next ((s.withInputs rest).reply (.word ((s.withInputs rest).readRegister (registerAt off)))) := by
  rw [step_of_cons h]
  exact if_pos (beq_iff_eq.mpr haligned)

theorem step_regRead_of_misaligned {off : Nat} (h : s.inputs = .regRead off :: rest) (haligned : off % 4 ≠ 0) :
    step s = .refused .misalignedRegisterAccess := by
  rw [step_of_cons h]
  exact if_neg fun hwf => haligned (beq_iff_eq.mp hwf)

theorem step_regWrite {off : Nat} {v : Word} (h : s.inputs = .regWrite off v :: rest) (haligned : off % 4 = 0) :
    step s = (s.withInputs rest).hostRegWrite off v := by
  rw [step_of_cons h]
  exact if_pos (beq_iff_eq.mpr haligned)

theorem step_memRead {addr : Nat} (h : s.inputs = .memRead addr :: rest) :
    step s = .next ((s.withInputs rest).hostMemRead addr) :=
  step_of_cons h

theorem step_memWrite {addr : Nat} {b : Byte} (h : s.inputs = .memWrite addr b :: rest) :
    step s = .next ((s.withInputs rest).hostMemWrite addr b) :=
  step_of_cons h

end steps

/-! ### Host accesses to pixel memory (R214, R215) -/

theorem readByte_withInputs (s : State) (ops : List Input) (a : Nat) : (s.withInputs ops).readByte a = s.readByte a :=
  readByte_congr (withInputs_mem s ops) (withInputs_resets s ops) a

theorem hostMemRead_of_lt {s : State} {addr : Nat} (h : addr < s.memSize) :
    s.hostMemRead addr = s.reply (.byte (s.readByte addr)) :=
  if_pos h

theorem hostMemWrite_of_lt {s : State} {addr : Nat} (h : addr < s.memSize) (b : Byte) :
    s.hostMemWrite addr b = s.writeBytes addr [b] :=
  if_pos h

/-- `MemWrite(a, 1, [b])` at every address (R65). -/
theorem readByte_writeBytes_singleton (s : State) (a : Nat) (b : Byte) (x : Nat) :
    (s.writeBytes a [b]).readByte x = if x = a then b else s.readByte x := by
  split_ifs with hx
  · subst hx
    exact readByte_writeBytes_inside (v := [b]) Nat.one_pos
  · exact readByte_writeBytes_outside (by rw [List.length_singleton]; omega)

/-- Settles O28, by the law of a one-byte write. -/
theorem hostWriteSetsTheByte : Obligations.HostWriteSetsTheByte := by
  intro s addr b rest h hinside
  have hstep := step_memWrite h
  rw [hostMemWrite_of_lt (s := s.withInputs rest) hinside] at hstep
  refine ⟨_, hstep, rfl, fun a => ?_⟩
  rw [readByte_writeBytes_singleton, readByte_withInputs]

/-- Settles O27: a read inside pixel memory only adds its reply. -/
theorem hostReadReturnsTheByte : Obligations.HostReadReturnsTheByte := by
  intro s addr rest h hinside
  rw [step_memRead h, hostMemRead_of_lt (s := s.withInputs rest) hinside, readByte_withInputs]
  rfl

/-! ### A write to STATUS (R213) -/

theorem hostRegWrite_status (s : State) (v : Word) : s.hostRegWrite 0x04 v = .next (s.writeStatus v) := rfl

theorem writeStatus_of_set {v : Word} (h : v.getLsbD 0 = true) (s : State) : s.writeStatus v = s.clearLatch := if_pos h

theorem writeStatus_of_clear {v : Word} (h : v.getLsbD 0 = false) (s : State) : s.writeStatus v = s :=
  if_neg (by rw [h]; exact Bool.false_ne_true)

/-- Without ERR there is nothing to clear: the invariant keeps ERRCODE and ERRCMD at 0 then (R26). -/
theorem clearLatch_of_not_err {s : State} (hinv : s.Inv) (herr : s.err = false) : s.clearLatch = s := by
  obtain ⟨hcode, hcmd⟩ := hinv.noCauseWithoutError herr
  unfold State.clearLatch
  rw [← herr, ← hcode, ← hcmd]

/-- Settles O26, by bit 0 of the written value. -/
theorem statusWriteClearsTheErrorState : Obligations.StatusWriteClearsTheErrorState := by
  intro s v rest h
  have hstep : step s = .next ((s.withInputs rest).writeStatus v) :=
    (step_regWrite h rfl).trans (hostRegWrite_status _ v)
  have hset (hbit : v.getLsbD 0 = true) : step s = .next (s.clearLatch.withInputs rest) := by
    rw [hstep, writeStatus_of_set hbit]
    rfl
  have hclear (hbit : v.getLsbD 0 = false) : step s = .next (s.withInputs rest) := by
    rw [hstep, writeStatus_of_clear hbit]
  refine ⟨hset, hclear, fun hinv herr => ?_⟩
  cases hbit : v.getLsbD 0 with
  | false => exact hclear hbit
  | true =>
    rw [hset hbit, clearLatch_of_not_err hinv herr]
    rfl

/-! ### What a register reads as (R210) -/

theorem readRegister_withInputs (s : State) (ops : List Input) (r : Register) :
    (s.withInputs ops).readRegister r = s.readRegister r := by
  cases r <;> rfl

theorem statusWord_eq (s : State) : s.statusWord = (if s.tv then 2 else 0) + (if s.err then 1 else 0) := by
  unfold State.statusWord
  cases s.tv <;> cases s.err <;> rfl

theorem get_ofNat (k : Kernel) {j : Nat} (h : j < 9) : k.get (Fin.ofNat 9 j) = k.regs.getD j k.k0 := by
  interval_cases j <;> rfl

/-- The weight halves: register Kj starts at 0x30 + 8j, its low half first. -/
theorem registerAt_weight {off : Nat} (hlow : 0x30 ≤ off) (hhigh : off < 0x78) :
    registerAt off = if (off - 0x30) % 8 = 0 then .kLo (Fin.ofNat 9 ((off - 0x30) / 8))
      else .kHi (Fin.ofNat 9 ((off - 0x30) / 8)) := by
  have hhalf : (off - 0x30) % 8 = off % 8 := by omega
  rw [hhalf]
  simp (disch := omega) only [registerAt, if_neg, if_pos]

theorem registerAt_of_beyond {off : Nat} (h : 0x78 ≤ off) : registerAt off = .reserved := by
  simp (disch := omega) only [registerAt, if_neg]

theorem readRegister_weight (s : State) {off : Nat} (hlow : 0x30 ≤ off) (hhigh : off < 0x78) :
    s.readRegister (registerAt off)
      = if (off - 0x30) % 8 = 0 then (s.kernel.regs.getD ((off - 0x30) / 8) s.kernel.k0).lo
        else (s.kernel.regs.getD ((off - 0x30) / 8) s.kernel.k0).hi := by
  rw [registerAt_weight hlow hhigh, apply_ite s.readRegister, ← get_ofNat s.kernel (by omega)]
  rfl

/-- Settles O21: the one-word registers row by row, then the weights, then the offsets beyond them. -/
theorem registerReadsFollowTheMap : Obligations.RegisterReadsFollowTheMap := by
  intro s off rest h v
  by_cases haligned : off % 4 = 0
  · suffices hv : s.readRegister (registerAt off) = v by
      rw [if_pos haligned, step_regRead h haligned, readRegister_withInputs, hv]
      rfl
    subst v
    rw [← statusWord_eq]
    rcases Nat.lt_or_ge off 0x30 with hlow | hlow
    · obtain ⟨row, rfl⟩ := Nat.dvd_of_mod_eq_zero haligned
      have hrow : row < 12 := by omega
      interval_cases row <;> rfl
    rcases Nat.lt_or_ge off 0x78 with hhigh | hhigh
    · rw [readRegister_weight s hlow hhigh]
      simp (disch := omega) only [if_neg, if_pos]
    · rw [registerAt_of_beyond hhigh]
      simp (disch := omega) only [if_neg]
      rfl
  · rw [if_neg haligned]
    exact step_regRead_of_misaligned h haligned

end Sys2Proof.Proofs
end

section
/-! PROOFS. The checks of a CMD write in their fixed order (R98, R234): the words that select no command, the conditions of the
checks on the raw fields of the state, and the verdict of the checks carried out. -/

namespace Sys2Proof.Proofs

open Sys2Proof.Machine

/-! ### The words that select no command (R93) -/

/-- The check ILLEGAL fails, on the two fields of the word (R90, R227). -/
abbrev SelectsNoCommand (c : Word) : Prop :=
  c.extractLsb' 8 24 ≠ 0 ∨ c.extractLsb' 0 8 = 0 ∨ 8 ≤ c.extractLsb' 0 8

theorem decodeOpc_eq_none {n : Nat} (h : n = 0 ∨ 8 ≤ n) : decodeOpc n = none := by
  unfold decodeOpc
  split
  case h_8 => rfl
  all_goals omega

theorem decode_eq_error {c : Word} (h : SelectsNoCommand c) : ∃ e, decode c = .error e := by
  unfold decode
  split_ifs with hzero
  · have hopc : (opcField c).toNat = 0 ∨ 8 ≤ (opcField c).toNat := by
      rcases h with hset | h0 | h8
      · exact absurd hzero hset
      · exact .inl (congrArg BitVec.toNat h0)
      · exact .inr h8
    rw [decodeOpc_eq_none hopc]
    exact ⟨_, rfl⟩
  · exact ⟨_, rfl⟩

/-- A word with ZERO = 0 is its operation code. -/
theorem toNat_opc_of_zeroField {c : Word} (h : c.extractLsb' 8 24 = 0) : (c.extractLsb' 0 8).toNat = c.toNat := by
  have hhigh : c.toNat / 2 ^ 8 % 2 ^ 24 = 0 := by
    simpa [BitVec.extractLsb'_toNat, Nat.shiftRight_eq_div_pow] using congrArg BitVec.toNat h
  have hbound := c.isLt
  rw [BitVec.extractLsb'_toNat, Nat.shiftRight_zero]
  omega

/-- The codes 1 to 7 are the seven commands (R91). -/
theorem exists_eq_encode {c : Word} (h : ¬ SelectsNoCommand c) : ∃ i, c = encode i := by
  simp only [SelectsNoCommand, not_or, not_not] at h
  obtain ⟨hzero, h0, h8⟩ := h
  have hopc := toNat_opc_of_zeroField hzero
  have hpos : 1 ≤ c.toNat := by bv_omega
  have hlt : c.toNat < 8 := by bv_omega
  suffices hword : ∃ i, c.toNat = (encode i).toNat from hword.imp fun _ => BitVec.eq_of_toNat_eq
  generalize c.toNat = n at hpos hlt
  interval_cases n
  · exact ⟨.gray, rfl⟩
  · exact ⟨.grayfx, rfl⟩
  · exact ⟨.histeq, rfl⟩
  · exact ⟨.gamma, rfl⟩
  · exact ⟨.conv3, rfl⟩
  · exact ⟨.mean3, rfl⟩
  · exact ⟨.otsu, rfl⟩

theorem decode_encode (i : Instr) : decode (encode i) = .ok i := by
  cases i <;> rfl

theorem issue_of_selectsNoCommand {c : Word} (h : SelectsNoCommand c) (s : State) :
    issue c s = .next (illegalCommand c s) := by
  obtain ⟨e, he⟩ := decode_eq_error h
  unfold issue
  rw [he]

theorem issue_encode (i : Instr) (s : State) : issue (encode i) s = exec i s := by
  unfold issue
  rw [decode_encode]

/-- A host write to CMD issues its word (R212). -/
theorem step_cmdWrite {s : State} {c : Word} {rest : List Input} (h : s.inputs = .regWrite 0x00 c :: rest) :
    step s = issue c (s.withInputs rest) :=
  step_regWrite h rfl

/-! ### The conditions of the checks, on the raw fields -/

/-- GRAY and GRAYFX read three channels, the others one (R68). -/
theorem sourceSize_eq (i : Instr) (s : State) :
    s.sourceSize i = if encode i = 1 ∨ encode i = 2 then 3 * (s.width.toNat * s.height.toNat)
      else s.width.toNat * s.height.toNat := by
  unfold State.sourceSize State.pixelCount
  cases i <;> simp [sourceChannels, encode]

theorem not_point_iff (i : Instr) :
    ¬ commandClass i = .point ↔ encode i = 1 ∨ encode i = 2 ∨ encode i = 5 ∨ encode i = 6 := by
  cases i <;> decide

/-- The check OVERLAP fails: the ranges share a byte, and the command is allocating or does not work in place (R231). -/
theorem aliasesWrongly_iff (i : Instr) (s : State) :
    s.aliasesWrongly i = true ↔
      (s.src.toNat < s.dst.toNat + s.pixelCount ∧ s.dst.toNat < s.src.toNat + s.sourceSize i)
        ∧ (encode i = 1 ∨ encode i = 2 ∨ encode i = 5 ∨ encode i = 6 ∨ s.dst ≠ s.src) := by
  rw [← Bool.not_eq_false, aliasesWrongly_eq_false_iff, not_or, not_and_or, not_point_iff]
  simp only [disjointRanges, not_or, not_le, or_assoc, ne_eq, and_comm]

/-- The check PARAM fails (R232). -/
theorem badParameter_iff (i : Instr) (s : State) :
    s.badParameter i = true ↔
      (encode i = 4 ∧ ((s.gamma.hi ++ s.gamma.lo).getLsbD 63 = true
        ∨ (s.gamma.hi ++ s.gamma.lo).extractLsb' 52 11 = 2047 ∨ (s.gamma.hi ++ s.gamma.lo).extractLsb' 0 63 = 0))
      ∨ (encode i = 5 ∧ ∃ k ∈ s.kernel.regs, 2023 ≤ (k.hi ++ k.lo : BitVec 64).extractLsb' 52 11) := by
  rw [← Bool.not_eq_false, badParameter_eq_false_iff]
  cases i
  case gamma => simp [parametersLegal, encode, or_iff_not_imp_left]
  all_goals simp [parametersLegal, encode]

/-! ### The verdict of the checks carried out (R233) -/

/-- What a verdict on command i makes of the command: nothing, the refusal latched, or its execution, which leaves the latch as it
was. -/
def CarriedOut (i : Instr) (s : State) : Verdict → Prop
  | .ignored => exec i s = .next s
  | .refused cause => exec i s = .next (s.refuse cause (encode i))
  | .accepted => ∃ t, exec i s = .next t ∧ t.err = false ∧ t.errcode = s.errcode ∧ t.errcmd = s.errcmd

theorem executed_latch {i : Instr} {s t : State} (h : Executed i s t) :
    t.err = s.err ∧ t.errcode = s.errcode ∧ t.errcmd = s.errcmd := by
  cases h with
  | image pixel _ => exact ⟨rfl, rfl, rfl⟩
  | cut pixel _ => exact ⟨rfl, rfl, rfl⟩

/-- The verdict of the acceptance checks is what happens. -/
theorem carriedOut_acceptance (i : Instr) (s : State) : CarriedOut i s (acceptance i s) := by
  rcases exec_cases i s with ⟨herr, hignored⟩ | ⟨cause, -, hverdict, hrefused⟩ | ⟨haccepts, t, hnext, hexecuted⟩
  · rw [(acceptance_eq_ignored_iff i s).mpr herr]
    exact hignored
  · rw [hverdict]
    exact hrefused
  · rw [(acceptance_eq_accepted_iff i s).mpr haccepts]
    obtain ⟨herr, hcode, hcmd⟩ := executed_latch hexecuted
    exact ⟨t, hnext, herr.trans haccepts.notLatched, hcode, hcmd⟩

/-- Settles O4: the verdict on a legal word is an if-chain over the checks, so carrying it out is the same chain over the
outcomes; a word that selects no command never reaches that chain. -/
theorem commandChecksRunInTheirFixedOrder : Obligations.CommandChecksRunInTheirFixedOrder := by
  intro s c rest h u N SB G refusedWith
  have hstep : step s = issue c u := step_cmdWrite h
  by_cases hword : SelectsNoCommand c
  · rw [issue_of_selectsNoCommand hword] at hstep
    rw [if_pos hword]
    split_ifs with herr
    · exact hstep.trans (congrArg _ (if_pos herr))
    · exact hstep.trans (congrArg _ (if_neg herr))
  · obtain ⟨i, rfl⟩ := exists_eq_encode hword
    have hexec : exec i u = step s := (hstep.trans (issue_encode i u)).symm
    have hchain := carriedOut_acceptance i u
    simp only [acceptance, apply_ite (CarriedOut i u)] at hchain
    simp only [CarriedOut, aliasesWrongly_iff, badParameter_iff, sourceSize_eq, hexec] at hchain
    rw [if_neg hword]
    exact hchain

end Sys2Proof.Proofs
end

section
/-! PROOFS. The scan of OTSU for its cut: the first candidate of least cost (R195). -/

namespace Sys2Proof.Proofs

open Sys2Proof.Machine

/-- Among the candidates, r has the least cost, and every smaller one costs strictly more. -/
structure IsFirstMinimiser (cost : Nat → Rat) (candidates : List Nat) (r : Nat) : Prop where
  mem : r ∈ candidates
  le : ∀ u ∈ candidates, cost r ≤ cost u
  lt : ∀ u ∈ candidates, u < r → cost r < cost u

/-- The scan, from a best candidate so far that is no larger than those to come. -/
theorem isFirstMinimiser_scan (cost : Nat → Rat) {best : Nat} {candidates : List Nat}
    (hsorted : (best :: candidates).Pairwise (· ≤ ·)) :
    IsFirstMinimiser cost (best :: candidates) (firstMinimiser cost best candidates) := by
  induction candidates generalizing best with
  | nil => exact ⟨by simp [firstMinimiser], by simp [firstMinimiser], by simp [firstMinimiser]⟩
  | cons t ts ih =>
    obtain ⟨hbest, hrest⟩ := List.pairwise_cons.mp hsorted
    obtain ⟨ht, hts⟩ := List.pairwise_cons.mp hrest
    have hbt : best ≤ t := hbest t List.mem_cons_self
    rw [firstMinimiser]
    split_ifs with hcost
    · obtain ⟨hmem, hle, hlt⟩ := ih hrest
      have hless := (hle t List.mem_cons_self).trans_lt hcost
      exact ⟨List.mem_cons_of_mem _ hmem, List.forall_mem_cons.mpr ⟨hless.le, hle⟩,
        List.forall_mem_cons.mpr ⟨fun _ => hless, hlt⟩⟩
    · obtain ⟨hmem, hle, hlt⟩ :=
        ih (List.pairwise_cons.mpr ⟨fun u hu => hbest u (List.mem_cons_of_mem _ hu), hts⟩)
      obtain ⟨hle_best, hle_rest⟩ := List.forall_mem_cons.mp hle
      obtain ⟨hlt_best, hlt_rest⟩ := List.forall_mem_cons.mp hlt
      have hle_t := hle_best.trans (not_lt.mp hcost)
      refine ⟨?_, List.forall_mem_cons.mpr ⟨hle_best, List.forall_mem_cons.mpr ⟨hle_t, hle_rest⟩⟩,
        List.forall_mem_cons.mpr ⟨hlt_best, List.forall_mem_cons.mpr ⟨fun hr => ?_, hlt_rest⟩⟩⟩
      · rcases List.mem_cons.mp hmem with heq | hmem
        · rw [heq]
          exact List.mem_cons_self
        · exact List.mem_cons_of_mem _ (List.mem_cons_of_mem _ hmem)
      · exact (hlt_best (hbt.trans_lt hr)).trans_le (not_lt.mp hcost)

theorem isFirstMinimiser_cutValue (hist : List Nat) (N : Nat) :
    IsFirstMinimiser (splitCost hist N) (0 :: List.range 255) (cutValue hist N) :=
  isFirstMinimiser_scan _ (List.pairwise_cons.mpr ⟨fun _ _ => Nat.zero_le _, List.pairwise_le_range⟩)

theorem mem_cutCandidates {t : Nat} : t ∈ 0 :: List.range 255 ↔ t ≤ 254 := by
  rw [List.mem_cons, List.mem_range]
  omega

/-- The cut lies in 0..254 (R23, R195). -/
theorem cutValue_le (hist : List Nat) (N : Nat) : cutValue hist N ≤ 254 :=
  mem_cutCandidates.mp (isFirstMinimiser_cutValue hist N).mem

theorem splitCost_cutValue_le (hist : List Nat) (N : Nat) {u : Nat} (hu : u ≤ 254) :
    splitCost hist N (cutValue hist N) ≤ splitCost hist N u :=
  (isFirstMinimiser_cutValue hist N).le u (mem_cutCandidates.mpr hu)

theorem splitCost_cutValue_lt (hist : List Nat) (N : Nat) {u : Nat} (hu : u < cutValue hist N) :
    splitCost hist N (cutValue hist N) < splitCost hist N u :=
  (isFirstMinimiser_cutValue hist N).lt u (mem_cutCandidates.mpr (hu.le.trans (cutValue_le hist N))) hu

/-- The cut as THRESH holds it. -/
theorem toNat_ofNat_cutValue (hist : List Nat) (N : Nat) :
    (BitVec.ofNat 8 (cutValue hist N)).toNat = cutValue hist N := by
  have := cutValue_le hist N
  rw [BitVec.toNat_ofNat]
  omega

end Sys2Proof.Proofs
end

section
/-! PROOFS. What a step can do, said once: one case for each operation of the outside world (R16, R217), and for a command
ignored, refused or executed (R212). The statements about every step go through these cases. -/

namespace Sys2Proof.Proofs

open Sys2Proof.Machine

/-! ### The register of an offset (R28) -/

/-- Every register but the reserved word stands at its offset. -/
theorem registerAt_offset {r : Register} (h : r ≠ .reserved) : registerAt r.offset = r := by
  cases r
  case kLo j => fin_cases j <;> rfl
  case kHi j => fin_cases j <;> rfl
  case reserved => exact absurd rfl h
  all_goals rfl

/-- Of the thirty words below 0x78 only the one at 0x24 is reserved (R29). -/
theorem registerAt_row {row : Nat} (hrow : row < 30) (hne : row ≠ 9) :
    registerAt (4 * row) ≠ .reserved ∧ (registerAt (4 * row)).offset = 4 * row := by
  rcases Nat.lt_or_gt_of_ne hne with hlow | hhigh
  · interval_cases row <;> exact ⟨nofun, rfl⟩
  · interval_cases row <;> exact ⟨nofun, rfl⟩

/-- An aligned offset with a register is one of the thirty words below 0x78. -/
theorem offset_registerAt {off : Nat} (haligned : off % 4 = 0) (h : registerAt off ≠ .reserved) :
    (registerAt off).offset = off := by
  rcases Nat.lt_or_ge off 0x78 with hoff | hoff
  · obtain ⟨row, rfl⟩ := Nat.dvd_of_mod_eq_zero haligned
    exact (registerAt_row (by omega) fun hreserved => h (by rw [hreserved]; rfl)).2
  · exact absurd (registerAt_of_beyond hoff) h

theorem hostRegWrite_of_ne_zero (s : State) {off : Nat} (v : Word) (haligned : off % 4 = 0) (hoff : off ≠ 0) :
    s.hostRegWrite off v = .next (s.writeRegister (registerAt off) v) := by
  have hcmd : registerAt off ≠ .cmd := fun h => hoff <| by
    rw [← offset_registerAt haligned (by rw [h]; nofun), h]
    rfl
  unfold State.hostRegWrite
  split
  · next h => exact absurd h hcmd
  · rfl

/-! ### The cases -/

/-- A command that answers a next state was ignored, refused or executed (R212). -/
theorem exec_next_cases {i : Instr} {s t : State} (h : exec i s = .next t) :
    (s.err = true ∧ t = s)
    ∨ (∃ cause, s.err = false ∧ acceptance i s = .refused cause ∧ t = s.refuse cause (encode i))
    ∨ (Accepts i s ∧ Executed i s t) := by
  rcases exec_cases i s with ⟨herr, hignored⟩ | ⟨cause, herr, hverdict, hrefused⟩ | ⟨haccepts, u, hnext, hexecuted⟩
  · cases hignored.symm.trans h
    exact .inl ⟨herr, rfl⟩
  · cases hrefused.symm.trans h
    exact .inr (.inl ⟨cause, herr, hverdict, rfl⟩)
  · cases hnext.symm.trans h
    exact .inr (.inr ⟨haccepts, hexecuted⟩)

/-- The ways in which a step goes on. -/
inductive StepsTo (s : State) : State → Prop where
  | idle (h : s.inputs = []) : StepsTo s s
  | regRead {off : Nat} {rest : List Input} (h : s.inputs = .regRead off :: rest) (v : Word) :
    StepsTo s ((s.withInputs rest).reply (.word v))
  | regWrite {off : Nat} {v : Word} {rest : List Input} (h : s.inputs = .regWrite off v :: rest)
    (haligned : off % 4 = 0) (hoff : off ≠ 0) : StepsTo s ((s.withInputs rest).writeRegister (registerAt off) v)
  | illegal {c : Word} {rest : List Input} (h : s.inputs = .regWrite 0x00 c :: rest) (hc : SelectsNoCommand c) :
    StepsTo s (illegalCommand c (s.withInputs rest))
  | command {i : Instr} {rest : List Input} {t : State} (h : s.inputs = .regWrite 0x00 (encode i) :: rest)
    (ht : exec i (s.withInputs rest) = .next t) : StepsTo s t
  | memRead {addr : Nat} {rest : List Input} (h : s.inputs = .memRead addr :: rest) :
    StepsTo s ((s.withInputs rest).hostMemRead addr)
  | memWrite {addr : Nat} {b : Byte} {rest : List Input} (h : s.inputs = .memWrite addr b :: rest) :
    StepsTo s ((s.withInputs rest).hostMemWrite addr b)
  | reset {rest : List Input} (h : s.inputs = .reset :: rest) : StepsTo s (s.withInputs rest).platformReset

theorem exec_goesOn (i : Instr) (s : State) : ∃ t, exec i s = .next t := by
  rcases exec_cases i s with ⟨-, hignored⟩ | ⟨cause, -, -, hrefused⟩ | ⟨-, t, hnext, -⟩
  exacts [⟨_, hignored⟩, ⟨_, hrefused⟩, ⟨_, hnext⟩]

/-- The next operation is a register access that is none: its offset is no multiple of 4 (R210, U6). -/
def MisalignedAccessNext (s : State) : Prop :=
  ∃ off rest, off % 4 ≠ 0 ∧ (s.inputs = .regRead off :: rest ∨ ∃ v, s.inputs = .regWrite off v :: rest)

theorem step_of_misaligned {s : State} (h : MisalignedAccessNext s) : step s = .refused .misalignedRegisterAccess := by
  obtain ⟨off, rest, haligned, h | ⟨v, h⟩⟩ := h
  · exact step_regRead_of_misaligned h haligned
  · rw [step_of_cons h]
    exact if_neg fun hwf => haligned (beq_iff_eq.mp hwf)

/-- Every step goes on in one of these ways, or stops at a misaligned register access. -/
theorem step_cases (s : State) : MisalignedAccessNext s ∨ ∃ t, step s = .next t ∧ StepsTo s t := by
  cases hinputs : s.inputs with
  | nil => exact .inr ⟨s, step_of_nil hinputs, .idle hinputs⟩
  | cons op rest =>
    cases op with
    | regRead off =>
      by_cases haligned : off % 4 = 0
      · exact .inr ⟨_, step_regRead hinputs haligned, .regRead hinputs _⟩
      · exact .inl ⟨off, rest, haligned, .inl hinputs⟩
    | regWrite off v =>
      by_cases haligned : off % 4 = 0
      · right
        by_cases hoff : off = 0
        · subst hoff
          have hstep := step_cmdWrite hinputs
          by_cases hword : SelectsNoCommand v
          · exact ⟨_, hstep.trans (issue_of_selectsNoCommand hword _), .illegal hinputs hword⟩
          · obtain ⟨i, rfl⟩ := exists_eq_encode hword
            obtain ⟨t, ht⟩ := exec_goesOn i (s.withInputs rest)
            exact ⟨t, (hstep.trans (issue_encode i _)).trans ht, .command hinputs ht⟩
        · exact ⟨_, (step_regWrite hinputs haligned).trans (hostRegWrite_of_ne_zero _ v haligned hoff),
            .regWrite hinputs haligned hoff⟩
      · exact .inl ⟨off, rest, haligned, .inr ⟨v, hinputs⟩⟩
    | memRead addr => exact .inr ⟨_, step_memRead hinputs, .memRead hinputs⟩
    | memWrite addr b => exact .inr ⟨_, step_memWrite hinputs, .memWrite hinputs⟩
    | reset => exact .inr ⟨_, step_of_cons hinputs, .reset hinputs⟩

theorem StepsTo.of_step {s t : State} (h : step s = .next t) : StepsTo s t := by
  rcases step_cases s with hmisaligned | ⟨u, hu, hsteps⟩
  · rw [step_of_misaligned hmisaligned] at h
    cases h
  · rw [hu] at h
    cases h
    exact hsteps

/-- Settles O15: ignored, refused or executed, a command answers a next state. -/
theorem everyCommandEnds : Obligations.EveryCommandEnds := exec_goesOn

/-- Settles O16, by the cases of a step. -/
theorem onlyMisalignedRegisterAccessStops : Obligations.OnlyMisalignedRegisterAccessStops := by
  intro s
  rcases step_cases s with hmisaligned | ⟨t, ht, -⟩
  · exact .inr ⟨step_of_misaligned hmisaligned, hmisaligned⟩
  · exact .inl ⟨t, ht⟩

end Sys2Proof.Proofs
end

section
/-! PROOFS. The invariant of the state: each update keeps it, hence every step does. -/

namespace Sys2Proof.Proofs

open Sys2Proof.Machine

/-! ### The updates of the state -/

section updates

variable {s : State} (h : s.Inv)
include h

/-- The invariant does not look at the operand registers, at the counters or outside the block. -/
theorem inv_of_eq {t : State}
    (ht : t = { s with
      src := t.src, dst := t.dst, width := t.width, height := t.height, gamma := t.gamma, kernel := t.kernel,
      resets := t.resets, draws := t.draws, inputs := t.inputs, replies := t.replies }) : t.Inv := by
  rw [ht]
  exact ⟨h.memoryForm, h.memoryInside, h.memorySize, h.noCauseWithoutError, h.causeWithError, h.thresholdRange,
    h.thresholdInvalid⟩

theorem inv_refuse {cause : Cause} {word : Word} (hagrees : cause.agreesWith word) : (s.refuse cause word).Inv :=
  { memoryForm := h.memoryForm
    memoryInside := h.memoryInside
    memorySize := h.memorySize
    noCauseWithoutError := nofun
    causeWithError := fun _ => ⟨cause, rfl, hagrees⟩
    thresholdRange := h.thresholdRange
    thresholdInvalid := h.thresholdInvalid }

theorem inv_clearLatch : s.clearLatch.Inv :=
  { memoryForm := h.memoryForm
    memoryInside := h.memoryInside
    memorySize := h.memorySize
    noCauseWithoutError := fun _ => ⟨rfl, rfl⟩
    causeWithError := nofun
    thresholdRange := h.thresholdRange
    thresholdInvalid := h.thresholdInvalid }

theorem inv_writeBytes {a : Nat} {v : List Byte} (hinside : a + v.length ≤ s.memSize) : (s.writeBytes a v).Inv :=
  { memoryForm := wf_writeAll a v h.memoryForm
    memoryInside := inside_writeAll hinside h.memoryInside
    memorySize := h.memorySize
    noCauseWithoutError := h.noCauseWithoutError
    causeWithError := h.causeWithError
    thresholdRange := h.thresholdRange
    thresholdInvalid := h.thresholdInvalid }

theorem inv_recordThreshold {t : Byte} (ht : t.toNat ≤ 254) : (s.recordThreshold t).Inv :=
  { memoryForm := h.memoryForm
    memoryInside := h.memoryInside
    memorySize := h.memorySize
    noCauseWithoutError := h.noCauseWithoutError
    causeWithError := h.causeWithError
    thresholdRange := ht
    thresholdInvalid := nofun }

end updates

theorem inv_resetWith {n : Nat} (hn : 1 ≤ n ∧ n ≤ 2 ^ 32) : (State.resetWith n).Inv :=
  { memoryForm := rfl
    memoryInside := nofun
    memorySize := hn
    noCauseWithoutError := fun _ => ⟨rfl, rfl⟩
    causeWithError := nofun
    thresholdRange := Nat.zero_le _
    thresholdInvalid := fun _ => rfl }

/-! ### The operations -/

section operations

variable {s : State} (h : s.Inv)
include h

theorem inv_writeRegister (r : Register) (v : Word) : (s.writeRegister r v).Inv := by
  cases r
  case status =>
    change (s.writeStatus v).Inv
    unfold State.writeStatus
    split_ifs
    · exact inv_clearLatch h
    · exact h
  all_goals exact inv_of_eq h rfl

theorem inv_illegalCommand {c : Word} (hc : SelectsNoCommand c) : (illegalCommand c s).Inv := by
  obtain ⟨e, he⟩ := decode_eq_error hc
  unfold illegalCommand
  split_ifs
  · exact h
  · exact inv_refuse h fun i hi => by rw [he] at hi; cases hi

/-- An accepted command writes inside pixel memory, and OTSU's cut is at most 254. -/
theorem inv_executed {i : Instr} {t : State} (haccepts : Accepts i s) (ht : Executed i s t) : t.Inv := by
  have hinside (pixel : Nat → Byte) : s.dst.toNat + ((List.range s.pixelCount).map pixel).length ≤ s.memSize := by
    rw [List.length_map, List.length_range]
    exact haccepts.destination
  cases ht with
  | image pixel _ => exact inv_writeBytes h (hinside pixel)
  | cut pixel _ =>
    exact inv_writeBytes (inv_recordThreshold h ((toNat_ofNat_cutValue _ _).trans_le (cutValue_le _ _))) (hinside pixel)

theorem inv_exec {i : Instr} {t : State} (ht : exec i s = .next t) : t.Inv := by
  rcases exec_next_cases ht with ⟨-, rfl⟩ | ⟨cause, -, hverdict, rfl⟩ | ⟨haccepts, hexecuted⟩
  · exact h
  · exact inv_refuse h (acceptance_cause hverdict)
  · exact inv_executed h haccepts hexecuted

theorem inv_hostMemRead (addr : Nat) : (s.hostMemRead addr).Inv := by
  unfold State.hostMemRead
  split_ifs
  · exact inv_of_eq h rfl
  · exact inv_of_eq h rfl

theorem inv_hostMemWrite (addr : Nat) (b : Byte) : (s.hostMemWrite addr b).Inv := by
  unfold State.hostMemWrite
  split_ifs with hinside
  · exact inv_writeBytes h (Nat.succ_le_of_lt hinside)
  · exact h

theorem inv_platformReset : s.platformReset.Inv := inv_of_eq (inv_resetWith h.memorySize) rfl

end operations

/-- Settles O33, by the cases of a step. -/
theorem everyStepKeepsTheInvariant : Obligations.EveryStepKeepsTheInvariant := by
  intro s t h hstep
  have hu (rest : List Input) : (s.withInputs rest).Inv := inv_of_eq h rfl
  cases StepsTo.of_step hstep with
  | idle => exact h
  | regRead _ v => exact inv_of_eq h rfl
  | regWrite => exact inv_writeRegister (hu _) _ _
  | illegal _ hc => exact inv_illegalCommand (hu _) hc
  | command _ ht => exact inv_exec (hu _) ht
  | memRead => exact inv_hostMemRead (hu _) _
  | memWrite => exact inv_hostMemWrite (hu _) _ _
  | reset => exact inv_platformReset (hu _)

/-- Settles O32: MEM_SIZE is one more than a 32-bit number. -/
theorem resetMeetsTheInvariant : Obligations.ResetMeetsTheInvariant :=
  inv_resetWith ⟨Nat.le_add_left 1 _, Config.memSizePred.isLt⟩

end Sys2Proof.Proofs
end

section
/-! PROOFS. The error latch and the threshold over every step: only a STATUS write or reset leaves the latch (R236),
only OTSU or reset changes THRESH and TV (R23, R25). -/

namespace Sys2Proof.Proofs

open Sys2Proof.Machine

/-! ### Commands -/

/-- An executed command other than OTSU leaves THRESH and TV, and OTSU sets TV (R195). -/
theorem executed_threshold {i : Instr} {s t : State} (h : Executed i s t) :
    (i ≠ .otsu ∧ t.thresh = s.thresh ∧ t.tv = s.tv) ∨ (i = .otsu ∧ t.tv = true) := by
  cases h with
  | image _ hi => exact .inl ⟨hi, rfl, rfl⟩
  | cut _ hi => exact .inr ⟨hi, rfl⟩

/-- No command leaves the latched state (R235). -/
theorem err_of_exec {i : Instr} {s t : State} (h : exec i s = .next t) (herr : s.err = true) : t.err = true := by
  rcases exec_next_cases h with ⟨-, rfl⟩ | ⟨cause, -, -, rfl⟩ | ⟨-, hexecuted⟩
  · exact herr
  · rfl
  · rw [(executed_latch hexecuted).1, herr]

/-- A command changes THRESH and TV only where it is an OTSU that is executed, which sets TV. -/
theorem threshold_of_exec {i : Instr} {s t : State} (h : exec i s = .next t) :
    (t.thresh = s.thresh ∧ t.tv = s.tv) ∨ (i = .otsu ∧ s.err = false ∧ t.err = false ∧ t.tv = true) := by
  rcases exec_next_cases h with ⟨-, rfl⟩ | ⟨cause, -, -, rfl⟩ | ⟨haccepts, hexecuted⟩
  · exact .inl ⟨rfl, rfl⟩
  · exact .inl ⟨rfl, rfl⟩
  · rcases executed_threshold hexecuted with ⟨-, hthresh, htv⟩ | ⟨hi, htv⟩
    · exact .inl ⟨hthresh, htv⟩
    · exact .inr ⟨hi, haccepts.notLatched, (executed_latch hexecuted).1.trans haccepts.notLatched, htv⟩

/-! ### Register writes, host accesses and illegal words -/

theorem writeRegister_threshold (s : State) (r : Register) (v : Word) :
    (s.writeRegister r v).thresh = s.thresh ∧ (s.writeRegister r v).tv = s.tv := by
  cases r
  case status =>
    change (s.writeStatus v).thresh = s.thresh ∧ (s.writeStatus v).tv = s.tv
    unfold State.writeStatus
    split_ifs <;> exact ⟨rfl, rfl⟩
  all_goals exact ⟨rfl, rfl⟩

/-- A register write that leaves the latched state is one to STATUS with bit 0 set (R213, R236). -/
theorem writeRegister_leaves_latch {s : State} {r : Register} {v : Word} (herr : s.err = true)
    (h : (s.writeRegister r v).err = false) :
    r = .status ∧ v.getLsbD 0 = true ∧ (s.writeRegister r v).errcode = 0 ∧ (s.writeRegister r v).errcmd = 0 := by
  cases r
  case status =>
    change (s.writeStatus v).err = false at h
    change _ ∧ _ ∧ (s.writeStatus v).errcode = 0 ∧ (s.writeStatus v).errcmd = 0
    unfold State.writeStatus at h ⊢
    split_ifs at h ⊢ with hbit
    · exact ⟨rfl, hbit, rfl, rfl⟩
    · exact absurd (herr.symm.trans h) nofun
  all_goals exact absurd (herr.symm.trans h) nofun

theorem hostMemRead_flags (s : State) (addr : Nat) :
    (s.hostMemRead addr).err = s.err ∧ (s.hostMemRead addr).thresh = s.thresh ∧ (s.hostMemRead addr).tv = s.tv := by
  unfold State.hostMemRead
  split_ifs <;> exact ⟨rfl, rfl, rfl⟩

theorem hostMemWrite_flags (s : State) (addr : Nat) (b : Byte) :
    (s.hostMemWrite addr b).err = s.err ∧ (s.hostMemWrite addr b).thresh = s.thresh
      ∧ (s.hostMemWrite addr b).tv = s.tv := by
  unfold State.hostMemWrite
  split_ifs <;> exact ⟨rfl, rfl, rfl⟩

theorem illegalCommand_flags (c : Word) (s : State) :
    (illegalCommand c s).err = true ∧ (illegalCommand c s).thresh = s.thresh ∧ (illegalCommand c s).tv = s.tv := by
  unfold illegalCommand
  split_ifs with herr
  · exact ⟨herr, rfl, rfl⟩
  · exact ⟨rfl, rfl, rfl⟩

/-! ### Steps -/

/-- Settles O30, by the cases of a step: every other operation keeps ERR = 1. -/
theorem onlyStatusWriteOrResetLeavesTheLatch : Obligations.OnlyStatusWriteOrResetLeavesTheLatch := by
  intro s t herr hstep hclear
  have impossible {p : Prop} {b : Bool} (hset : b = true) (hunset : b = false) : p :=
    absurd (hset.symm.trans hunset) nofun
  cases StepsTo.of_step hstep with
  | idle => exact impossible herr hclear
  | regRead => exact impossible herr hclear
  | @regWrite off v rest h haligned _ =>
    obtain ⟨hstatus, hbit, hcode, hcmd⟩ := writeRegister_leaves_latch (s := s.withInputs rest) herr hclear
    have hoff : off = 0x04 := (offset_registerAt haligned (by rw [hstatus]; nofun)).symm.trans (by rw [hstatus]; rfl)
    exact ⟨hcode, hcmd, .inl ⟨v, rest, hoff ▸ h, hbit⟩⟩
  | illegal => exact impossible (illegalCommand_flags _ _).1 hclear
  | @command _ rest _ _ ht => exact impossible (err_of_exec (s := s.withInputs rest) ht herr) hclear
  | @memRead _ rest => exact impossible ((hostMemRead_flags (s.withInputs rest) _).1.trans herr) hclear
  | @memWrite _ _ rest => exact impossible ((hostMemWrite_flags (s.withInputs rest) _ _).1.trans herr) hclear
  | @reset rest h => exact ⟨rfl, rfl, .inr ⟨rest, h⟩⟩

/-- Settles O31, by the cases of a step: every other operation keeps THRESH and TV. -/
theorem onlyOtsuOrResetChangesTheThreshold : Obligations.OnlyOtsuOrResetChangesTheThreshold := by
  intro s t hstep hchanged
  have kept {p : Prop} (h : t.thresh = s.thresh ∧ t.tv = s.tv) : p := (hchanged.elim (· h.2) (· h.1)).elim
  cases StepsTo.of_step hstep with
  | idle => exact kept ⟨rfl, rfl⟩
  | regRead => exact kept ⟨rfl, rfl⟩
  | @regWrite _ _ rest => exact kept (writeRegister_threshold (s.withInputs rest) _ _)
  | @illegal _ rest => exact kept (illegalCommand_flags _ (s.withInputs rest)).2
  | @command i rest _ h ht =>
    rcases threshold_of_exec ht with hkept | ⟨rfl, herr, herr', htv⟩
    · exact kept hkept
    · exact .inr ⟨rest, h, herr, herr', htv⟩
  | @memRead _ rest => exact kept (hostMemRead_flags (s.withInputs rest) _).2
  | @memWrite _ _ rest => exact kept (hostMemWrite_flags (s.withInputs rest) _ _).2
  | @reset rest h => exact .inl ⟨rest, h, rfl, rfl⟩

end Sys2Proof.Proofs
end

section
/-! PROOFS. The frame of a command on pixel memory and on everything that is no operand register (R61, R233). -/

namespace Sys2Proof.Proofs

open Sys2Proof.Machine

/-- What is outside the block, and MEM_SIZE and the counters, the same in two states. -/
structure SameOutside (s t : State) : Prop where
  memSize : t.memSize = s.memSize
  resets : t.resets = s.resets
  draws : t.draws = s.draws
  inputs : t.inputs = s.inputs
  replies : t.replies = s.replies

theorem sameOutside_executed {i : Instr} {s t : State} (h : Executed i s t) : SameOutside s t := by
  cases h with
  | image => exact ⟨rfl, rfl, rfl, rfl, rfl⟩
  | cut => exact ⟨rfl, rfl, rfl, rfl, rfl⟩

theorem keptOutsideDestination_executed {i : Instr} {s t : State} (h : Executed i s t) :
    keptOutsideDestination s t := by
  intro a ha
  cases h with
  | image pixel _ => exact readByte_outside_destination pixel ha
  | cut pixel _ => exact (readByte_outside_destination pixel ha).trans (readByte_congr rfl rfl a)

/-- Settles O14, by the three outcomes of a command. -/
theorem commandsChangeOnlyTheirDestinationBytes : Obligations.CommandsChangeOnlyTheirDestinationBytes := by
  intro i s t h
  rcases exec_next_cases h with ⟨-, rfl⟩ | ⟨cause, -, -, rfl⟩ | ⟨haccepts, hexecuted⟩
  · exact ⟨fun _ _ => rfl, fun _ _ => rfl, fun _ => ⟨rfl, rfl⟩, fun _ => ⟨rfl, rfl⟩, rfl, rfl, rfl, rfl, rfl⟩
  · exact ⟨fun a _ => readByte_congr rfl rfl a, fun _ a => readByte_congr rfl rfl a, fun _ => ⟨rfl, rfl⟩,
      fun herr => absurd herr nofun, rfl, rfl, rfl, rfl, rfl⟩
  · obtain ⟨herr, hcode, hcmd⟩ := executed_latch hexecuted
    obtain ⟨hmemSize, hresets, hdraws, hinputs, hreplies⟩ := sameOutside_executed hexecuted
    have hnotLatched : t.err = false := herr.trans haccepts.notLatched
    refine ⟨keptOutsideDestination_executed hexecuted, fun hlatched => ?latched, fun hcase => ?threshold,
      fun _ => ⟨hcode, hcmd⟩, hmemSize, hresets, hdraws, hinputs, hreplies⟩
    case latched => exact absurd (hnotLatched.symm.trans hlatched) nofun
    case threshold =>
      rcases executed_threshold hexecuted with ⟨-, hkept⟩ | ⟨hi, -⟩
      · exact hkept
      · exact hcase.elim (absurd hi) fun hlatched => absurd (hnotLatched.symm.trans hlatched) nofun

/-- Settles O5: more than 2^32 pixels need more source bytes than there is memory, so the third check ends the processing. -/
theorem hugeImageIsRefusedNotWrapped : Obligations.HugeImageIsRefusedNotWrapped := by
  intro i s herr hsize hhuge
  have hwidth : s.width ≠ 0 := fun h => by simp [h] at hhuge
  have hheight : s.height ≠ 0 := fun h => by simp [h] at hhuge
  have hsource : s.pixelCount ≤ s.sourceSize i := by
    unfold State.sourceSize
    exact Nat.le_mul_of_pos_left _ (by cases i <;> decide)
  have hverdict : acceptance i s = .refused .srcRange := by
    unfold acceptance
    rw [if_neg (by simp [herr]), if_neg (not_or.mpr ⟨hwidth, hheight⟩), if_pos]
    unfold State.pixelCount at hsource
    omega
  have hcarried := carriedOut_acceptance i s
  rw [hverdict] at hcarried
  exact hcarried

end Sys2Proof.Proofs
end

section
/-! PROOFS. Encoding and the issue of a command (R90, R91, R212). -/

namespace Sys2Proof.Proofs

open Sys2Proof.Machine

theorem decode_eq_ok_iff (c : Word) (i : Instr) : decode c = .ok i ↔ c = encode i := by
  constructor
  · intro h
    by_cases hword : SelectsNoCommand c
    · obtain ⟨e, he⟩ := decode_eq_error hword
      rw [he] at h
      cases h
    · obtain ⟨j, rfl⟩ := exists_eq_encode hword
      rw [decode_encode] at h
      cases h
      rfl
  · rintro rfl
    exact decode_encode i

/-- Settles O1: seven encoded commands, and three words that the decoder refuses. -/
theorem tableWordsSelectTheirCommands : Obligations.TableWordsSelectTheirCommands :=
  ⟨decode_encode .gray, decode_encode .grayfx, decode_encode .histeq, decode_encode .gamma, decode_encode .conv3,
    decode_encode .mean3, decode_encode .otsu, rfl, rfl, rfl⟩

/-- Settles O2: a word that is no command's selects none. -/
theorem onlyTheEncodedWordDecodesToACommand : Obligations.OnlyTheEncodedWordDecodesToACommand := decode_eq_ok_iff

/-- The table gives all 32 bits of a command's word. -/
theorem tableWord_encode (i : Instr) : tableWord 32 (encode i).toNat = encode i := by
  cases i <;> rfl

/-- Settles O3: the step at a CMD write issues the word, and the word that `withFetchWord` places is the command's own. -/
theorem stepRunsTheDecodedCommand : Obligations.StepRunsTheDecodedCommand := by
  refine ⟨fun s c rest i h hc => ?_, fun s i => ?_⟩
  · rw [step_cmdWrite h, (decode_eq_ok_iff c i).mp hc, issue_encode]
  · have h : (s.withFetchWord 32 (encode i).toNat).inputs
        = .regWrite 0x00 (tableWord 32 (encode i).toNat) :: s.inputs := rfl
    rw [step_cmdWrite h, tableWord_encode, issue_encode]
    rfl

/-- Settles O20. -/
theorem idleBlockDoesNothing : Obligations.IdleBlockDoesNothing := fun _ => step_of_nil

theorem hostMemRead_of_le {s : State} {addr : Nat} (h : s.memSize ≤ addr) :
    s.hostMemRead addr = { s.reply (.byte (Config.freeByte s.draws)) with draws := s.draws + 1 } :=
  if_neg (not_lt.mpr h)

theorem hostMemWrite_of_le {s : State} {addr : Nat} (h : s.memSize ≤ addr) (b : Byte) : s.hostMemWrite addr b = s :=
  if_neg (not_lt.mpr h)

/-- Settles O29: beyond pixel memory a read only replies and draws, and a write changes nothing. -/
theorem hostAccessBeyondMemoryChangesNothing : Obligations.HostAccessBeyondMemoryChangesNothing := by
  intro s addr rest hbeyond
  refine ⟨fun h => ⟨Config.freeByte s.draws, ?_⟩, fun b h => ?_⟩
  · rw [step_memRead h, hostMemRead_of_le (s := s.withInputs rest) hbeyond]
    rfl
  · rw [step_memWrite h, hostMemWrite_of_le (s := s.withInputs rest) hbeyond]
    rfl

end Sys2Proof.Proofs
end

section
/-! PROOFS. The register file: names and offsets, what a write to a register changes, and its reset values (R22, R28, R32). -/

namespace Sys2Proof.Proofs

open Sys2Proof.Machine

/-! ### Names and offsets (R28) -/

/-- Settles O24: the offsets of the map, and the aligned offsets that have no register. -/
theorem registerNamesAndOffsetsAgree : Obligations.RegisterNamesAndOffsetsAgree := by
  refine ⟨fun r h => ⟨registerAt_offset h, ?_⟩, fun off => offset_registerAt, fun off haligned => ⟨fun h => ?_, ?_⟩⟩
  · cases r
    case kLo j => exact ⟨by simp [Register.offset]; omega, by simp [Register.offset]; omega⟩
    case kHi j => exact ⟨by simp [Register.offset]; omega, by simp [Register.offset]; omega⟩
    all_goals decide
  · rcases Nat.lt_or_ge off 0x78 with hoff | hoff
    · obtain ⟨row, rfl⟩ := Nat.dvd_of_mod_eq_zero haligned
      by_cases hreserved : row = 9
      · exact .inl (by rw [hreserved])
      · exact absurd h (registerAt_row (by omega) hreserved).1
    · exact .inr hoff
  · rintro (rfl | hoff)
    · rfl
    · exact registerAt_of_beyond hoff

/-! ### The weight registers (R22) -/

theorem get_set (k : Kernel) (i j : Fin 9) (r : Reg64) : (k.set j r).get i = if i = j then r else k.get i := by
  fin_cases i <;> fin_cases j <;> rfl

theorem regs_set (k : Kernel) {j : Nat} (hj : j < 9) (r : Reg64) :
    (k.set (Fin.ofNat 9 j) r).regs = k.regs.set j r := by
  interval_cases j <;> rfl

/-! ### Reading back (R21, R22) -/

/-- The registers that hold what the host writes: SRC to HEIGHT, GAMMA and the weights. -/
def IsReadWrite : Register → Prop
  | .src | .dst | .width | .height | .gammaLo | .gammaHi | .kLo _ | .kHi _ => True
  | .cmd | .status | .errcode | .errcmd | .thresh | .reserved => False

theorem readRegister_writeRegister_same {r : Register} (h : IsReadWrite r) (s : State) (v : Word) :
    (s.writeRegister r v).readRegister r = v := by
  cases r
  case kLo j => simp [State.writeRegister, State.readRegister, get_set, Reg64.withLo]
  case kHi j => simp [State.writeRegister, State.readRegister, get_set, Reg64.withHi]
  case cmd | status | errcode | errcmd | thresh | reserved => exact h.elim
  all_goals rfl

/-- A write to a weight half leaves both halves of every other weight and the other half of its own. -/
theorem readRegister_writeRegister_weight {r r' : Register} (hr : (∃ j, r = .kLo j) ∨ ∃ j, r = .kHi j) (hne : r' ≠ r)
    (s : State) (v : Word) : (s.writeRegister r v).readRegister r' = s.readRegister r' := by
  rcases hr with ⟨j, rfl⟩ | ⟨j, rfl⟩ <;> cases r'
  case inl.kLo i | inr.kHi i =>
    have hij : i ≠ j := fun hij => hne (by rw [hij])
    simp [State.writeRegister, State.readRegister, get_set, hij]
  case inl.kHi i | inr.kLo i =>
    by_cases hij : i = j
    · subst hij
      simp [State.writeRegister, State.readRegister, get_set, Reg64.withLo, Reg64.withHi]
    · simp [State.writeRegister, State.readRegister, get_set, hij]
  all_goals rfl

theorem readRegister_writeRegister_of_ne {r r' : Register} (h : IsReadWrite r) (hne : r' ≠ r) (s : State) (v : Word) :
    (s.writeRegister r v).readRegister r' = s.readRegister r' := by
  cases r
  case kLo j => exact readRegister_writeRegister_weight (.inl ⟨j, rfl⟩) hne s v
  case kHi j => exact readRegister_writeRegister_weight (.inr ⟨j, rfl⟩) hne s v
  case cmd | status | errcode | errcmd | thresh | reserved => exact h.elim
  all_goals
    cases r' <;> simp [State.writeRegister, State.readRegister, State.statusWord, State.errcodeWord, State.threshWord,
      Reg64.withLo, Reg64.withHi] at hne ⊢

theorem isReadWrite_registerAt {off : Nat} (haligned : off % 4 = 0)
    (h : 0x10 ≤ off ∧ off < 0x20 ∨ 0x28 ≤ off ∧ off < 0x78) : IsReadWrite (registerAt off) := by
  rcases Nat.lt_or_ge off 0x30 with hlow | hlow
  · obtain ⟨row, rfl⟩ := Nat.dvd_of_mod_eq_zero haligned
    rcases (by omega : 4 ≤ row ∧ row < 8 ∨ 10 ≤ row ∧ row < 12) with ⟨hfrom, hto⟩ | ⟨hfrom, hto⟩
    · interval_cases row <;> trivial
    · interval_cases row <;> trivial
  · rw [registerAt_weight hlow (by omega)]
    split_ifs <;> trivial

/-- Settles O23: different aligned offsets are different registers, or one of them is none. -/
theorem writtenRegisterReadsBack : Obligations.WrittenRegisterReadsBack := by
  intro s off v rest h haligned hrange
  have hrw := isReadWrite_registerAt haligned hrange
  refine ⟨_, (step_regWrite h haligned).trans (hostRegWrite_of_ne_zero _ v haligned (by omega)),
    fun off' haligned' => ?_⟩
  split_ifs with heq
  · rw [heq, readRegister_writeRegister_same hrw]
  · have hne : registerAt off' ≠ registerAt off := fun hsame => heq <| by
      have hreg : registerAt off ≠ .reserved := fun hres => by rw [hres] at hrw; exact hrw
      rw [← offset_registerAt haligned hreg, ← hsame, offset_registerAt haligned' (hsame ▸ hreg)]
    rw [readRegister_writeRegister_of_ne hrw hne, readRegister_withInputs]

/-! ### The map of writes (R211) -/

/-- Settles O22: the one-word registers row by row, then the weights, then the offsets beyond them. -/
theorem registerWritesFollowTheMap : Obligations.RegisterWritesFollowTheMap := by
  intro s off v rest h u
  by_cases haligned : off % 4 = 0
  · rw [if_neg (not_not.mpr haligned)]
    by_cases hzero : off = 0
    · subst hzero
      exact step_cmdWrite h
    have hstep := (step_regWrite h haligned).trans (hostRegWrite_of_ne_zero _ v haligned hzero)
    rcases Nat.lt_or_ge off 0x30 with hlow | hlow
    · obtain ⟨row, rfl⟩ := Nat.dvd_of_mod_eq_zero haligned
      have hpos : 1 ≤ row := by omega
      have hrow : row < 12 := by omega
      interval_cases row <;> exact hstep
    rcases Nat.lt_or_ge off 0x78 with hhigh | hhigh
    · have hj : (off - 0x30) / 8 < 9 := by omega
      rw [registerAt_weight hlow hhigh] at hstep
      simp (disch := omega) only [if_neg, if_pos]
      rw [← get_ofNat s.kernel hj]
      split_ifs at hstep ⊢
      · exact ⟨_, hstep, regs_set _ hj _⟩
      · exact ⟨_, hstep, regs_set _ hj _⟩
    · rw [registerAt_of_beyond hhigh] at hstep
      simp (disch := omega) only [if_neg]
      exact hstep
  · rw [if_pos haligned]
    exact step_of_misaligned ⟨off, rest, haligned, .inr ⟨v, h⟩⟩

/-! ### The script line `setk` (R96) -/

/-- The step of a script's register write, other than to CMD (R95). -/
theorem step_writeOp {s : State} {r : Register} {v : Word} {rest : List Input} (hr : r ≠ .reserved)
    (hcmd : r.offset ≠ 0) (h : s.inputs = writeOp r v :: rest) :
    step s = .next ((s.withInputs rest).writeRegister r v) := by
  obtain ⟨hregister, haligned, -⟩ := registerNamesAndOffsetsAgree.1 r hr
  rw [(step_regWrite h haligned).trans (hostRegWrite_of_ne_zero _ v haligned hcmd), hregister]

theorem double_halves (p : Double) : (⟨p.extractLsb' 0 32, p.extractLsb' 32 32⟩ : Reg64).double = p :=
  (BitVec.extractLsb'_append_extractLsb'_eq_extractLsb' rfl).trans BitVec.extractLsb'_eq_self

/-- Settles O25: the two writes set the two halves of one weight. -/
theorem setkLineStoresTheWholeWeight : Obligations.SetkLineStoresTheWholeWeight := by
  intro s j p rest h
  have hlo := step_writeOp (r := .kLo j) nofun (by simp [Register.offset]) h
  refine ⟨_, _, hlo, step_writeOp (r := .kHi j) nofun (by simp [Register.offset]) rfl, rfl, ?_, fun i hi => ?_⟩
  · simpa [State.writeRegister, get_set, Reg64.withLo, Reg64.withHi] using double_halves p
  · simp [State.writeRegister, get_set, hi]

/-! ### Reset (R32, R250) -/

theorem readRegister_resetWith (n : Nat) (r : Register) : (State.resetWith n).readRegister r = 0 := by
  cases r
  case kLo j => fin_cases j <;> rfl
  case kHi j => fin_cases j <;> rfl
  all_goals rfl

/-- Settles O34. -/
theorem everyRegisterReadsZeroAfterReset : Obligations.EveryRegisterReadsZeroAfterReset :=
  fun off _ => readRegister_resetWith _ (registerAt off)

theorem readRegister_platformReset (s : State) (r : Register) : s.platformReset.readRegister r = 0 := by
  rw [← readRegister_resetWith s.memSize r]
  cases r <;> rfl

/-- Settles O35: after reset no byte is known to have been written. -/
theorem platformResetClearsTheBlock : Obligations.PlatformResetClearsTheBlock := by
  intro s rest h
  exact ⟨_, step_of_cons h, fun off _ => readRegister_platformReset _ _, fun _ => rfl, rfl, rfl, rfl, rfl⟩

end Sys2Proof.Proofs
end

section
/-! PROOFS. The result of an accepted command: the value of each destination pixel, the frame, and what the result depends on
(R62, R68, R72). -/

namespace Sys2Proof.Proofs

open Sys2Proof.Machine

/-! ### The result of a command -/

/-- The cut that OTSU selects for the source image (R195). -/
def sourceCut (s : State) : Nat := cutValue (histogram s.sourceSamples) s.pixelCount

/-- What an accepted command writes to destination pixel p. -/
def destinationPixel (i : Instr) (s : State) (p : Nat) : Byte :=
  match i with
  | .gray => s.reducedPixel grayPixel p
  | .grayfx => s.reducedPixel grayfxPixel p
  | .histeq => equalizedSample (histogram s.sourceSamples) s.pixelCount (s.sourceByte p)
  | .gamma => gammaEntry pow s.gamma.double (s.sourceByte p).toNat
  | .conv3 => clampRound (convolve s.kernel.weights (s.sourceNeighbourhood p))
  | .mean3 => mean (s.sourceNeighbourhood p)
  | .otsu => binarized (sourceCut s) (s.sourceByte p)

/-- The state that an accepted command leaves (R98 step 8). -/
def executedState (i : Instr) (s : State) : State :=
  (if i = .otsu then s.recordThreshold (BitVec.ofNat 8 (sourceCut s)) else s).writeBytes s.dst.toNat
    ((List.range s.pixelCount).map (destinationPixel i s))

theorem exec_eq_executedState {i : Instr} {s : State} (h : Accepts i s) : exec i s = .next (executedState i s) := by
  cases i
  case gray => exact exec_gray_accepted h
  case grayfx => exact exec_grayfx_accepted h
  case histeq => exact exec_histeq_accepted h
  case gamma => exact exec_gamma_accepted h
  case conv3 => exact exec_conv3_accepted h
  case mean3 => exact exec_mean3_accepted h
  case otsu => exact exec_otsu_accepted h

/-- A command's effect: every destination pixel, and nothing beside them but, in OTSU, THRESH and TV. -/
structure Completes (i : Instr) (s t : State) : Prop where
  pixel : ∀ p, p < s.pixelCount → t.readByte (s.dst.toNat + p) = destinationPixel i s p
  outside : keptOutsideDestination s t
  image : i ≠ .otsu → onlyMemoryDiffers s t
  cut : i = .otsu → t = { s with thresh := BitVec.ofNat 8 (sourceCut s), tv := true, mem := t.mem }

theorem completes_executedState (i : Instr) (s : State) : Completes i s (executedState i s) := by
  unfold executedState
  split_ifs with hi
  · exact ⟨fun _ => readByte_destination _,
      fun a ha => (readByte_outside_destination _ ha).trans (readByte_congr rfl rfl a), fun hne => absurd hi hne, fun _ => rfl⟩
  · exact ⟨fun _ => readByte_destination _, fun _ => readByte_outside_destination _, fun _ => rfl, fun heq => absurd heq hi⟩

theorem exec_completes {i : Instr} {s : State} (h : Accepts i s) : ∃ t, exec i s = .next t ∧ Completes i s t :=
  ⟨_, exec_eq_executedState h, completes_executedState i s⟩

theorem Completes.thresh {s t : State} (h : Completes .otsu s t) : t.thresh = BitVec.ofNat 8 (sourceCut s) := by
  rw [h.cut rfl]

theorem Completes.tv {s t : State} (h : Completes .otsu s t) : t.tv = true := by rw [h.cut rfl]

/-! ### Clamp-to-edge reads (R69) -/

/-- The linear index that a clamp-to-edge read goes to. -/
def clampedIndex (W H : Nat) (x y : Int) : Nat :=
  (min (max y 0) ((H : Int) - 1)).toNat * W + (min (max x 0) ((W : Int) - 1)).toNat

theorem sample_eq (s : State) (a W H : Nat) (x y : Int) :
    s.sample a W H x y = s.readByte (a + clampedIndex W H x y) := by
  unfold clampedIndex
  rw [← Nat.add_assoc]
  rfl

theorem clampedIndex_lt {W H : Nat} (hW : 0 < W) (hH : 0 < H) (x y : Int) : clampedIndex W H x y < W * H := by
  have hx : (min (max x 0) ((W : Int) - 1)).toNat < W := by omega
  have hy : (min (max y 0) ((H : Int) - 1)).toNat + 1 ≤ H := by omega
  unfold clampedIndex
  calc _ < ((min (max y 0) ((H : Int) - 1)).toNat + 1) * W := by rw [Nat.add_mul, Nat.one_mul]; omega
    _ ≤ H * W := Nat.mul_le_mul_right W hy
    _ = W * H := Nat.mul_comm H W

/-- The nine reads around a pixel as linear indices, in the order K0 to K8 (R180). -/
def neighbourIndices (s : State) (p : Nat) : List Nat :=
  let W := s.width.toNat
  [0, 1, 2].flatMap fun (ky : Int) => [0, 1, 2].map fun (kx : Int) =>
    clampedIndex W s.height.toNat ((p % W : Nat) + kx - 1) ((p / W : Nat) + ky - 1)

theorem sourceNeighbourhood_eq_map (s : State) (p : Nat) :
    s.sourceNeighbourhood p = (neighbourIndices s p).map s.sourceByte := by
  simp [State.sourceNeighbourhood, State.neighbourhood, neighbourIndices, sample_eq, State.sourceByte]

/-- No neighbour lies outside the image. -/
theorem lt_of_mem_neighbourIndices {s : State} (hcount : 0 < s.pixelCount) {p q : Nat}
    (hq : q ∈ neighbourIndices s p) : q < s.pixelCount := by
  have hW : 0 < s.width.toNat := Nat.pos_of_mul_pos_right hcount
  have hH : 0 < s.height.toNat := Nat.pos_of_mul_pos_left hcount
  simp only [neighbourIndices, List.mem_flatMap, List.mem_map] at hq
  obtain ⟨ky, -, kx, -, rfl⟩ := hq
  exact clampedIndex_lt hW hH _ _

/-! ### What the result depends on (R31, R62, R72) -/

/-- Two states with the same operands of command i: registers, and bytes of the source range. -/
structure SameSource (i : Instr) (s s' : State) : Prop where
  src : s'.src = s.src
  width : s'.width = s.width
  height : s'.height = s.height
  gamma : s'.gamma = s.gamma
  kernel : s'.kernel = s.kernel
  bytes : ∀ p, p < s.sourceSize i → s'.readByte (s.src.toNat + p) = s.readByte (s.src.toNat + p)

section sameSource

variable {i : Instr} {s s' : State} (h : SameSource i s s')
include h

theorem SameSource.pixelCount_eq : s'.pixelCount = s.pixelCount := by
  unfold State.pixelCount
  rw [h.width, h.height]

theorem SameSource.sourceByte_eq {p : Nat} (hp : p < s.sourceSize i) : s'.sourceByte p = s.sourceByte p := by
  unfold State.sourceByte
  rw [h.src, h.bytes p hp]

theorem SameSource.neighbourhood_eq (hi : sourceChannels i = 1) (hcount : 0 < s.pixelCount) (p : Nat) :
    s'.sourceNeighbourhood p = s.sourceNeighbourhood p := by
  have hindices : neighbourIndices s' p = neighbourIndices s p := by
    unfold neighbourIndices
    rw [h.width, h.height]
  rw [sourceNeighbourhood_eq_map, sourceNeighbourhood_eq_map, hindices]
  refine List.map_congr_left fun q hq => h.sourceByte_eq ?_
  rw [State.sourceSize, hi, Nat.one_mul]
  exact lt_of_mem_neighbourIndices hcount hq

theorem SameSource.sourceSamples_eq (hi : sourceChannels i = 1) : s'.sourceSamples = s.sourceSamples := by
  unfold State.sourceSamples State.readBytes
  rw [h.pixelCount_eq]
  refine List.map_congr_left fun p hp => h.sourceByte_eq ?_
  rw [State.sourceSize, hi, Nat.one_mul]
  exact List.mem_range.mp hp

theorem SameSource.reducedPixel_eq (hi : sourceChannels i = 3) (f : Byte → Byte → Byte → Byte) {p : Nat}
    (hp : p < s.pixelCount) : s'.reducedPixel f p = s.reducedPixel f p := by
  have hsize : s.sourceSize i = 3 * s.pixelCount := by rw [State.sourceSize, hi]
  unfold State.reducedPixel
  rw [h.sourceByte_eq (by omega), h.sourceByte_eq (by omega), h.sourceByte_eq (by omega)]

theorem SameSource.destinationPixel_eq {p : Nat} (hp : p < s.pixelCount) :
    destinationPixel i s' p = destinationPixel i s p := by
  have hone (hi : sourceChannels i = 1) : s'.sourceByte p = s.sourceByte p :=
    h.sourceByte_eq (by rw [State.sourceSize, hi, Nat.one_mul]; exact hp)
  have hcount : 0 < s.pixelCount := Nat.zero_lt_of_lt hp
  cases i <;> simp only [destinationPixel, sourceCut]
  case gray | grayfx => exact h.reducedPixel_eq rfl _ hp
  case histeq => rw [h.sourceSamples_eq rfl, h.pixelCount_eq, hone rfl]
  case gamma => rw [h.gamma, hone rfl]
  case conv3 => rw [h.kernel, h.neighbourhood_eq rfl hcount]
  case mean3 => rw [h.neighbourhood_eq rfl hcount]
  case otsu => rw [h.sourceSamples_eq rfl, h.pixelCount_eq, hone rfl]

/-- Acceptance looks at the registers and MEM_SIZE alone (R98). -/
theorem SameSource.accepts (hs : Accepts i s) (herr : s'.err = s.err) (hdst : s'.dst = s.dst)
    (hsize : s'.memSize = s.memSize) : Accepts i s' := by
  have hsource : s'.sourceSize i = s.sourceSize i := by rw [State.sourceSize, h.pixelCount_eq]; rfl
  exact
    { notLatched := herr.trans hs.notLatched
      width := h.width ▸ hs.width
      height := h.height ▸ hs.height
      source := by rw [h.src, hsource, hsize]; exact hs.source
      destination := by rw [hdst, h.pixelCount_eq, hsize]; exact hs.destination
      aliasing := by rw [h.src, hsource, hdst, h.pixelCount_eq]; exact hs.aliasing
      parameters := by
        have := hs.parameters
        cases i <;> simp only [parametersLegal, h.gamma, h.kernel] at this ⊢ <;> exact this }

end sameSource

/-- Settles O18: pixels and cut are functions of the operands that the two states share. -/
theorem resultDependsOnlyOnRegistersAndSource : Obligations.ResultDependsOnlyOnRegistersAndSource := by
  intro i s s' hs herr hsrc hdst hwidth hheight hgamma hkernel hsize hbytes
  have same : SameSource i s s' := ⟨hsrc, hwidth, hheight, hgamma, hkernel, hbytes⟩
  obtain ⟨t, ht, hdone⟩ := exec_completes hs
  obtain ⟨t', ht', hdone'⟩ := exec_completes (same.accepts hs herr hdst hsize)
  refine ⟨t, t', ht, ht', fun p hp => ?_, ?_⟩
  · rw [hdone.pixel p hp, ← same.destinationPixel_eq hp, ← hdone'.pixel p (same.pixelCount_eq.symm ▸ hp), hdst]
  · rintro rfl
    rw [hdone.thresh, hdone'.thresh, sourceCut, same.sourceSamples_eq rfl, same.pixelCount_eq]
    rfl

/-- DST is no operand of the pixels: they are computed from the source alone. -/
theorem destinationPixel_withDst (i : Instr) (s : State) (d : Word) :
    destinationPixel i { s with dst := d } = destinationPixel i s := by
  cases i <;> rfl

/-- Settles O19: the pixels and the cut do not depend on where the destination is. -/
theorem inPlaceResultEqualsDisjointResult : Obligations.InPlaceResultEqualsDisjointResult := by
  intro i s d _ hplace hs hs'
  obtain ⟨t, ht, hdone⟩ := exec_completes hs
  obtain ⟨t', ht', hdone'⟩ := exec_completes hs'
  refine ⟨t, t', ht, ht', fun p hp => ?_, ?_⟩
  · rw [← hplace, hdone.pixel p hp, ← destinationPixel_withDst i s d]
    exact hdone'.pixel p hp
  · by_cases hi : i = .otsu
    · subst hi
      rw [hdone.thresh, hdone'.thresh, hdone.tv, hdone'.tv]
      exact ⟨rfl, rfl⟩
    · rw [hdone.image hi, hdone'.image hi]
      exact ⟨rfl, rfl⟩

/-! ### The parameter registers (R22, R232) -/

/-- A command commutes with an update of the state that its acceptance, its refusal and its execution do not see. -/
theorem exec_commutes {i : Instr} {s : State} {f : State → State} (hverdict : acceptance i (f s) = acceptance i s)
    (hrefuse : ∀ cause word, (f s).refuse cause word = f (s.refuse cause word))
    (hexecuted : executedState i (f s) = f (executedState i s)) :
    ∃ t, exec i s = .next t ∧ exec i (f s) = .next (f t) := by
  have hs := carriedOut_acceptance i s
  have hf := carriedOut_acceptance i (f s)
  cases h : acceptance i s with
  | ignored =>
    rw [hverdict, h] at hf
    rw [h] at hs
    exact ⟨s, hs, hf⟩
  | refused cause =>
    rw [hverdict, h] at hf
    rw [h] at hs
    exact ⟨_, hs, hf.trans (congrArg _ (hrefuse cause _))⟩
  | accepted =>
    have haccepts := (acceptance_eq_accepted_iff i s).mp h
    have haccepts' := (acceptance_eq_accepted_iff i (f s)).mp (hverdict.trans h)
    exact ⟨_, exec_eq_executedState haccepts, (exec_eq_executedState haccepts').trans (congrArg _ hexecuted)⟩

/-- Settles O17: GAMMA stands in the check and the pixels of the command GAMMA alone, and the weights in those of CONV3. -/
theorem otherCommandsIgnoreTheParameterRegisters : Obligations.OtherCommandsIgnoreTheParameterRegisters := by
  refine ⟨fun i s g hi => ?gamma, fun i s k hi => ?kernel⟩
  case gamma =>
    refine exec_commutes (f := fun s => { s with gamma := g }) ?_ (fun _ _ => rfl) ?_
    all_goals cases i
    case gamma | gamma => exact absurd rfl hi
    all_goals rfl
  case kernel =>
    refine exec_commutes (f := fun s => { s with kernel := k }) ?_ (fun _ _ => rfl) ?_
    all_goals cases i
    case conv3 | conv3 => exact absurd rfl hi
    all_goals rfl

end Sys2Proof.Proofs
end

section
/-! PROOFS. The pixels of the colour reducer, the gamma corrector and the neighbourhood filter in the spec's own terms (R141,
R143, R170, R180, R182). -/

namespace Sys2Proof.Proofs

open Sys2Proof.Machine

/-! ### The colour reducer -/

/-- Settles O6: the formula of R141 is the model's own. -/
theorem grayWritesTheRoundedLuma : Obligations.GrayWritesTheRoundedLuma := by
  intro s h
  obtain ⟨t, ht, hdone⟩ := exec_completes h
  exact ⟨t, ht, hdone.image nofun, hdone.outside, hdone.pixel⟩

/-- The 16-bit sum does not wrap (R111). -/
theorem toNat_lumaFixed (r g b : Byte) : (lumaFixed r g b).toNat = 77 * r.toNat + 150 * g.toNat + 29 * b.toNat := by
  unfold lumaFixed
  bv_omega

theorem toNat_grayfxPixel (r g b : Byte) :
    (grayfxPixel r g b).toNat = (77 * r.toNat + 150 * g.toNat + 29 * b.toNat) / 256 := by
  have hr := r.isLt
  have hg := g.isLt
  have hb := b.isLt
  unfold grayfxPixel
  rw [BitVec.extractLsb'_toNat, toNat_lumaFixed, Nat.shiftRight_eq_div_pow]
  omega

/-- Settles O7. -/
theorem grayfxWritesTheTruncatedFixedPointLuma : Obligations.GrayfxWritesTheTruncatedFixedPointLuma := by
  intro s h
  obtain ⟨t, ht, hdone⟩ := exec_completes h
  refine ⟨t, ht, hdone.image nofun, hdone.outside, fun p hp => ?_⟩
  rw [hdone.pixel p hp]
  exact toNat_grayfxPixel _ _ _

/-! ### The gamma corrector -/

/-- Settles O9: the entry of a sample is the formula of R170. -/
theorem gammaSendsSamplesThroughThePowerTable : Obligations.GammaSendsSamplesThroughThePowerTable := by
  intro s h
  obtain ⟨t, ht, hdone⟩ := exec_completes h
  exact ⟨t, ht, hdone.image nofun, hdone.outside, hdone.pixel⟩

/-! ### The neighbourhood filter -/

/-- The pixel at column x and row y, by its linear index (R66). -/
theorem pixel_index {W H x y : Nat} (hx : x < W) (hy : y < H) :
    y * W + x < W * H ∧ (y * W + x) % W = x ∧ (y * W + x) / W = y := by
  refine ⟨?_, by rw [Nat.mul_comm, Nat.mul_add_mod, Nat.mod_eq_of_lt hx], ?_⟩
  · calc y * W + x < (y + 1) * W := by rw [Nat.add_mul, Nat.one_mul]; omega
      _ ≤ H * W := Nat.mul_le_mul_right W hy
      _ = W * H := Nat.mul_comm H W
  · rw [Nat.mul_comm, Nat.mul_add_div (Nat.zero_lt_of_lt hx), Nat.div_eq_of_lt hx, Nat.add_zero]

/-- The nine reads around the pixel at column x and row y, row by row (R69, R180). -/
theorem sourceNeighbourhood_pixel (s : State) {x y : Nat} (hx : x < s.width.toNat) (hy : y < s.height.toNat) :
    s.sourceNeighbourhood (y * s.width.toNat + x)
      = [clampedRead s x y (-1) (-1), clampedRead s x y 0 (-1), clampedRead s x y 1 (-1),
        clampedRead s x y (-1) 0, clampedRead s x y 0 0, clampedRead s x y 1 0,
        clampedRead s x y (-1) 1, clampedRead s x y 0 1, clampedRead s x y 1 1] := by
  obtain ⟨-, hmod, hdiv⟩ := pixel_index hx hy
  have hm (z : Int) : z + 0 - 1 = z + -1 := by ring
  have h0 (z : Int) : z + 1 - 1 = z + 0 := by ring
  have hp (z : Int) : z + 2 - 1 = z + 1 := by ring
  unfold State.sourceNeighbourhood State.neighbourhood
  simp only [hmod, hdiv, List.flatMap_cons, List.flatMap_nil, List.map_cons, List.map_nil, List.cons_append,
    List.nil_append, List.append_nil, hm, h0, hp]
  rfl

/-- Settles O10: the fold over the nine pairs of a weight and a neighbour, written out. -/
theorem conv3AccumulatesNineWeightedNeighbours : Obligations.Conv3AccumulatesNineWeightedNeighbours := by
  intro s h
  obtain ⟨t, ht, hdone⟩ := exec_completes h
  refine ⟨t, ht, hdone.image nofun, hdone.outside, fun x y hx hy => ?_⟩
  rw [Nat.add_assoc, hdone.pixel _ (pixel_index hx hy).1]
  unfold destinationPixel
  rw [sourceNeighbourhood_pixel s hx hy]
  rfl

/-- The mean of nine samples is below 256, so no bit of it is lost. -/
theorem toNat_mean {samples : List Byte} (hlength : samples.length = 9) :
    (mean samples).toNat = (samples.map BitVec.toNat).sum / 9 := by
  have hsum := List.sum_le_card_nsmul (samples.map BitVec.toNat) 255
    (List.forall_mem_map.mpr fun b _ => Nat.le_of_lt_succ b.isLt)
  rw [List.length_map, hlength, smul_eq_mul] at hsum
  unfold mean
  rw [BitVec.toNat_ofNat]
  omega

/-- Settles O11. -/
theorem mean3TruncatesTheNeighbourhoodMean : Obligations.Mean3TruncatesTheNeighbourhoodMean := by
  intro s h
  obtain ⟨t, ht, hdone⟩ := exec_completes h
  refine ⟨t, ht, hdone.image nofun, hdone.outside, fun x y hx hy => ?_⟩
  rw [Nat.add_assoc, hdone.pixel _ (pixel_index hx hy).1]
  unfold destinationPixel
  rw [sourceNeighbourhood_pixel s hx hy, toNat_mean rfl]
  simp only [List.map_cons, List.map_nil, List.sum_cons, List.sum_nil]
  omega

/-- A truncated mean of integer bounds stays within them. -/
theorem toNat_mean_mem {samples : List Byte} {lo hi : Nat} (hlength : samples.length = 9)
    (h : ∀ b ∈ samples, lo ≤ b.toNat ∧ b.toNat ≤ hi) : lo ≤ (mean samples).toNat ∧ (mean samples).toNat ≤ hi := by
  have hupper := List.sum_le_card_nsmul (samples.map BitVec.toNat) hi (List.forall_mem_map.mpr fun b hb => (h b hb).2)
  have hlower := List.card_nsmul_le_sum (samples.map BitVec.toNat) lo (List.forall_mem_map.mpr fun b hb => (h b hb).1)
  rw [List.length_map, hlength, smul_eq_mul] at hupper hlower
  rw [toNat_mean hlength]
  omega

/-- Settles O55: the nine neighbours are samples of the image. -/
theorem mean3StaysWithinTheSampleRange : Obligations.Mean3StaysWithinTheSampleRange := by
  intro s lo hi h hrange
  obtain ⟨t, ht, hdone⟩ := exec_completes h
  refine ⟨t, ht, fun p hp => ?_⟩
  rw [hdone.pixel p hp]
  refine toNat_mean_mem rfl ?_
  rw [sourceNeighbourhood_eq_map]
  exact List.forall_mem_map.mpr fun q hq => hrange q (lt_of_mem_neighbourIndices (Nat.zero_lt_of_lt hp) hq)

end Sys2Proof.Proofs
end

section
/-! PROOFS. The histogram equalizer: its darkest intensity, its table's order, and its command (R155, R157 to R159). -/

namespace Sys2Proof.Proofs

open Sys2Proof.Machine

/-! ### The histogram of the source (R155) -/

theorem length_sourceSamples (s : State) : s.sourceSamples.length = s.pixelCount := length_readBytes s _ _

theorem countP_sourceSamples (s : State) (v : Nat) :
    (s.sourceSamples.countP fun b => b.toNat == v) = sampleCount s v := by
  unfold State.sourceSamples State.readBytes
  rw [List.countP_map]
  rfl

theorem sourceByte_mem {s : State} {p : Nat} (hp : p < s.pixelCount) : s.sourceByte p ∈ s.sourceSamples :=
  List.mem_map.mpr ⟨p, List.mem_range.mpr hp, rfl⟩

theorem exists_sourceByte_of_mem {s : State} {b : Byte} (hb : b ∈ s.sourceSamples) :
    ∃ p, p < s.pixelCount ∧ s.sourceByte p = b := by
  obtain ⟨p, hp, hpb⟩ := List.mem_map.mp hb
  exact ⟨p, List.mem_range.mp hp, hpb⟩

theorem pixelCount_pos {i : Instr} {s : State} (h : Accepts i s) : 0 < s.pixelCount := by
  have hw := h.width
  have hh := h.height
  unfold State.pixelCount
  refine Nat.mul_pos (Nat.pos_of_ne_zero fun h0 => hw ?_) (Nat.pos_of_ne_zero fun h0 => hh ?_)
  · exact BitVec.eq_of_toNat_eq h0
  · exact BitVec.eq_of_toNat_eq h0

/-! ### The darkest intensity and the cumulative counts -/

theorem getElem_histogram (samples : List Byte) {v : Nat} (hv : v < (histogram samples).length) :
    (histogram samples)[v] = samples.countP fun b => b.toNat == v := by
  simp [histogram]

/-- gmin is the one intensity that occurs and has none below it that does. -/
theorem darkest_eq {samples : List Byte} {g : Nat} (hg : ∃ b ∈ samples, b.toNat = g) (hmin : ∀ b ∈ samples, g ≤ b.toNat) :
    darkest (histogram samples) = g := by
  obtain ⟨b, hb, rfl⟩ := hg
  have hlength : b.toNat < (histogram samples).length := by simpa [histogram] using b.isLt
  refine (List.findIdx_eq hlength).mpr ⟨?_, fun v hv => ?_⟩
  · rw [getElem_histogram samples hlength, decide_eq_true_iff, List.countP_pos_iff]
    exact ⟨b, hb, beq_self_eq_true _⟩
  · rw [getElem_histogram, decide_eq_false_iff_not, List.countP_pos_iff]
    rintro ⟨c, hc, hcv⟩
    have := hmin c hc
    rw [beq_iff_eq] at hcv
    omega

theorem exists_darkest {samples : List Byte} (h : samples ≠ []) :
    ∃ b ∈ samples, ∀ c ∈ samples, b.toNat ≤ c.toNat := by
  obtain ⟨b, hb⟩ := List.exists_mem_of_ne_nil samples h
  obtain ⟨m, hm, hmin⟩ := Finset.exists_min_image samples.toFinset BitVec.toNat ⟨b, List.mem_toFinset.mpr hb⟩
  exact ⟨m, List.mem_toFinset.mp hm, fun c hc => hmin c (List.mem_toFinset.mpr hc)⟩

theorem cumulative_mono (samples : List Byte) {i j : Nat} (h : i ≤ j) :
    cumulative (histogram samples) i ≤ cumulative (histogram samples) j := by
  rw [cumulative_histogram, cumulative_histogram]
  refine List.countP_mono_left fun b _ hb => ?_
  rw [decide_eq_true_eq] at hb ⊢
  omega

/-- cum[i] is N exactly when no sample is above i. -/
theorem cumulative_eq_length_iff (samples : List Byte) (i : Nat) :
    cumulative (histogram samples) i = samples.length ↔ ∀ b ∈ samples, b.toNat ≤ i := by
  rw [cumulative_histogram, List.countP_eq_length]
  refine forall₂_congr fun b _ => ?_
  have := b.isLt
  rw [decide_eq_true_eq]
  omega

/-! ### The table (R157) -/

theorem equalizeEntry_zero (hist : List Nat) (n : Nat) : equalizeEntry hist n 0 = 0 := if_pos rfl

section table

variable {samples : List Byte} (hne : samples.length ≠ darkestCount (histogram samples))
include hne

theorem ne_nil_of_not_constant : samples ≠ [] := by
  rintro rfl
  exact hne (Nat.le_zero.mp (cumulative_histogram_le [] _)).symm

theorem darkest_lt : darkest (histogram samples) < 256 := by
  obtain ⟨b, hb, hmin⟩ := exists_darkest (ne_nil_of_not_constant hne)
  rw [darkest_eq ⟨b, hb, rfl⟩ hmin]
  exact b.isLt

theorem darkestCount_lt : darkestCount (histogram samples) < samples.length :=
  (cumulative_histogram_le samples _).lt_of_ne hne.symm

variable (hlength : samples.length ≤ 2 ^ 32)
include hlength

/-- R156 also at i = 0, where nothing or hmin samples lie. -/
theorem toNat_equalizeEntry {i : Nat} (hi : i ≤ 255) :
    (equalizeEntry (histogram samples) samples.length i).toNat =
      if i = 0 ∨ cumulative (histogram samples) i ≤ darkestCount (histogram samples) then 0
      else (510 * (cumulative (histogram samples) i - darkestCount (histogram samples))
        + (samples.length - darkestCount (histogram samples)))
          / (2 * (samples.length - darkestCount (histogram samples))) := by
  by_cases h0 : i = 0
  · rw [if_pos (.inl h0), h0, equalizeEntry_zero]
    rfl
  · rw [equalizerTableHasAnIntegerForm samples hlength hne i (by omega) hi]
    simp only [h0, false_or]

theorem equalizeEntry_of_le_darkest {i : Nat} (hi : i ≤ darkest (histogram samples)) :
    (equalizeEntry (histogram samples) samples.length i).toNat = 0 := by
  have := darkest_lt hne
  rw [toNat_equalizeEntry hne hlength (by omega), if_pos (.inr (cumulative_mono samples hi))]

theorem equalizeEntry_mono {i j : Nat} (hij : i ≤ j) (hj : j ≤ 255) :
    (equalizeEntry (histogram samples) samples.length i).toNat
      ≤ (equalizeEntry (histogram samples) samples.length j).toNat := by
  have hcum := cumulative_mono samples hij
  rw [toNat_equalizeEntry hne hlength (hij.trans hj), toNat_equalizeEntry hne hlength hj]
  by_cases hi : i = 0 ∨ cumulative (histogram samples) i ≤ darkestCount (histogram samples)
  · rw [if_pos hi]
    exact Nat.zero_le _
  · rw [if_neg hi, if_neg (by omega)]
    exact Nat.div_le_div_right (by omega)

/-- The brightest intensity becomes 255 (R159). -/
theorem equalizeEntry_of_brightest {i : Nat} (hi : i ≤ 255) (hmax : ∀ b ∈ samples, b.toNat ≤ i) :
    (equalizeEntry (histogram samples) samples.length i).toNat = 255 := by
  have hlt := darkestCount_lt hne
  have hcum := (cumulative_eq_length_iff samples i).mpr hmax
  have h0 : i ≠ 0 := fun h0 => by
    have := cumulative_mono samples (Nat.zero_le (darkest (histogram samples)))
    rw [h0] at hcum
    unfold darkestCount at hlt
    omega
  rw [toNat_equalizeEntry hne hlength hi, if_neg (by omega), hcum]
  exact Nat.div_eq_of_lt_le (by omega) (by omega)

end table

/-- Settles O43. -/
theorem equalizerTableNeverDecreases : Obligations.EqualizerTableNeverDecreases := by
  intro samples hlength hist N hne
  exact ⟨equalizeEntry_zero _ _, fun i hi => BitVec.eq_of_toNat_eq (equalizeEntry_of_le_darkest hne hlength hi),
    fun i j => equalizeEntry_mono hne hlength⟩

/-! ### The command HISTEQ -/

/-- The image is constant exactly when no sample is brighter than the darkest. -/
theorem length_eq_darkestCount_iff {samples : List Byte} (h : samples ≠ []) :
    samples.length = darkestCount (histogram samples) ↔ ∀ b ∈ samples, ∀ c ∈ samples, b = c := by
  obtain ⟨m, hm, hmin⟩ := exists_darkest h
  unfold darkestCount
  rw [eq_comm, darkest_eq ⟨m, hm, rfl⟩ hmin, cumulative_eq_length_iff]
  constructor
  · intro hmax b hb c hc
    have := hmin b hb
    have := hmin c hc
    have := hmax b hb
    have := hmax c hc
    exact BitVec.eq_of_toNat_eq (by omega)
  · intro hconst b hb
    rw [hconst b hb m hm]

theorem sourceSamples_ne_nil {i : Instr} {s : State} (h : Accepts i s) : s.sourceSamples ≠ [] :=
  List.ne_nil_of_length_pos (length_sourceSamples s ▸ pixelCount_pos h)

/-- cum[i] as a sum of the counts of the source (R155). -/
theorem cumulative_sourceSamples (s : State) {i : Nat} (hi : i ≤ 255) :
    cumulative (histogram s.sourceSamples) i = ∑ v ∈ Finset.range (i + 1), sampleCount s v := by
  unfold cumulative histogram
  rw [← List.map_take, List.take_range, min_eq_left (by omega)]
  simp only [countP_sourceSamples]
  rfl

/-- gmin is the intensity with a count and none below it (R155). -/
theorem darkest_sourceSamples {s : State} {gmin : Nat} (hgmin : 0 < sampleCount s gmin)
    (hbelow : ∀ v < gmin, sampleCount s v = 0) : gmin ≤ 255 ∧ darkest (histogram s.sourceSamples) = gmin := by
  rw [← countP_sourceSamples, List.countP_pos_iff] at hgmin
  obtain ⟨b, hb, hbg⟩ := hgmin
  rw [beq_iff_eq] at hbg
  refine ⟨hbg ▸ Nat.le_of_lt_succ b.isLt, darkest_eq ⟨b, hb, hbg⟩ fun c hc => not_lt.mp fun hlt => ?_⟩
  have hzero := hbelow _ hlt
  rw [← countP_sourceSamples, List.countP_eq_zero] at hzero
  exact hzero c hc (beq_self_eq_true _)

/-- Settles O8: gmin is the darkest intensity and cum its running sums. -/
theorem histeqSendsSamplesThroughItsTable : Obligations.HisteqSendsSamplesThroughItsTable := by
  intro s h
  obtain ⟨t, ht, hdone⟩ := exec_completes h
  refine ⟨t, ht, hdone.image nofun, hdone.outside, fun gmin hgmin hbelow => ?_⟩
  intro N cum p hp v
  obtain ⟨hg255, hdarkest⟩ := darkest_sourceSamples hgmin hbelow
  have hmin : darkestCount (histogram s.sourceSamples) = cum gmin := by
    unfold darkestCount
    rw [hdarkest, cumulative_sourceSamples s hg255]
  have hcum : cumulative (histogram s.sourceSamples) v.toNat = cum v.toNat :=
    cumulative_sourceSamples s (Nat.le_of_lt_succ v.isLt)
  have hzero : v.toNat = 0 ↔ v = 0 := BitVec.toNat_inj (y := (0 : Byte))
  rw [hdone.pixel p hp]
  unfold destinationPixel equalizedSample equalizeEntry
  simp only [show s.sourceByte p = v from rfl, hmin, hcum, hzero]
  rfl

/-- Settles O44. -/
theorem histeqCopiesAConstantImage : Obligations.HisteqCopiesAConstantImage := by
  intro s v h hconst
  obtain ⟨t, ht, hdone⟩ := exec_completes h
  refine ⟨t, ht, fun p hp => ?_⟩
  have hsamples (b : Byte) (hb : b ∈ s.sourceSamples) : b = v := by
    obtain ⟨q, hq, rfl⟩ := exists_sourceByte_of_mem hb
    exact hconst q hq
  have hcount := (length_eq_darkestCount_iff (sourceSamples_ne_nil h)).mpr fun b hb c hc =>
    (hsamples b hb).trans (hsamples c hc).symm
  rw [length_sourceSamples] at hcount
  rw [hdone.pixel p hp, destinationPixel, equalizedSample, if_pos hcount]
  exact hconst p hp

/-- What HISTEQ makes of the samples keeps their order, whether the image is constant or not. -/
theorem equalizedSample_mono {samples : List Byte} (hlength : samples.length ≤ 2 ^ 32) {v w : Byte}
    (h : v.toNat ≤ w.toNat) :
    (equalizedSample (histogram samples) samples.length v).toNat
      ≤ (equalizedSample (histogram samples) samples.length w).toNat := by
  unfold equalizedSample
  split_ifs with hconst
  · exact h
  · exact equalizeEntry_mono hconst hlength h (Nat.le_of_lt_succ w.isLt)

/-- Settles O45: the table never decreases, is 0 at the darkest intensity and 255 at the brightest. -/
theorem histeqStretchesOverTheFullRange : Obligations.HisteqStretchesOverTheFullRange := by
  intro s h hsize before
  obtain ⟨t, ht, hdone⟩ := exec_completes h
  have hlength : s.sourceSamples.length ≤ 2 ^ 32 := by
    have := h.destination
    rw [length_sourceSamples]
    omega
  have hpixel (p : Nat) (hp : p < s.pixelCount) : t.readByte (s.dst.toNat + p)
      = equalizedSample (histogram s.sourceSamples) s.sourceSamples.length (s.sourceByte p) := by
    rw [hdone.pixel p hp, length_sourceSamples]
    rfl
  refine ⟨t, ht, fun p q hp hq hle => ?order, fun ⟨q, r, hq, hr, hdiffer⟩ p hp => ?_⟩
  case order =>
    simp only [hpixel p hp, hpixel q hq]
    exact equalizedSample_mono hlength hle
  have hne : s.sourceSamples.length ≠ darkestCount (histogram s.sourceSamples) := fun heq => by
    have hconst := (length_eq_darkestCount_iff (sourceSamples_ne_nil h)).mp heq
    exact hdiffer (congrArg BitVec.toNat (hconst _ (sourceByte_mem hq) _ (sourceByte_mem hr)))
  simp only [hpixel p hp, equalizedSample, if_neg hne]
  refine ⟨fun hmin => equalizeEntry_of_le_darkest hne hlength (ge_of_eq ?_), fun hmax =>
    equalizeEntry_of_brightest hne hlength (Nat.le_of_lt_succ (s.sourceByte p).isLt) fun b hb => ?_⟩
  · refine darkest_eq ⟨_, sourceByte_mem hp, rfl⟩ fun b hb => ?_
    obtain ⟨q, hq, rfl⟩ := exists_sourceByte_of_mem hb
    exact hmin q hq
  · obtain ⟨q, hq, rfl⟩ := exists_sourceByte_of_mem hb
    exact hmax q hq

end Sys2Proof.Proofs
end

section
/-! PROOFS. The error of an operation of bounded size, and binary64 numbers that approximate a real number (R113 to R118). -/

namespace Sys2Proof.Proofs

open Sys2Proof.Machine

/-- Settles O37: an integer below 2^53 is its own rounding. -/
theorem ofIntIsExact : Obligations.OfIntIsExact := by
  intro n hn
  have habs : |n| < 2 ^ 53 := by rw [Int.abs_eq_natAbs]; exact_mod_cast hn
  exact ⟨isFinite_ofInt habs, value_ofInt habs, fun h => by rw [h]; decide +kernel⟩

/-! ### The error of one operation -/

section operations

variable {e : Int} (he : -1074 ≤ e) (he' : e ≤ 970)
include he he'

theorem abs_lt_of_abs_lt {q : Rat} (hq : |q| < (2 : Rat) ^ (e + 53)) : |q| < (2 : Rat) ^ (1023 : Int) :=
  hq.trans_le (zpow_le_zpow_right₀ one_le_two (by omega))

/-- A number below 2^(e+53) is rounded by half a unit 2^e at most. -/
theorem abs_value_fl_sub_le_of_lt {q : Rat} (hq : |q| < (2 : Rat) ^ (e + 53)) : |value (fl q) - q| ≤ 2 ^ e / 2 :=
  (abs_value_fl_sub_le (abs_lt_of_abs_lt he he' hq)).trans (by linarith [unitOf_le he hq])

variable {a b : Double} (ha : isFinite a = true) (hb : isFinite b = true)
include ha hb

theorem fmul_error (hq : |value a * value b| < (2 : Rat) ^ (e + 53)) :
    isFinite (fmul a b) = true ∧ |value (fmul a b) - value a * value b| ≤ 2 ^ e / 2 := by
  obtain ⟨hfin, hvalue⟩ := fmul_rounds ha hb (abs_lt_of_abs_lt he he' hq)
  rw [hvalue]
  exact ⟨hfin, abs_value_fl_sub_le_of_lt he he' hq⟩

theorem fadd_error (hq : |value a + value b| < (2 : Rat) ^ (e + 53)) :
    isFinite (fadd a b) = true ∧ |value (fadd a b) - (value a + value b)| ≤ 2 ^ e / 2 := by
  rw [fadd_of_isFinite ha hb]
  split_ifs with hzero
  · rw [hzero, value_signedZero, sub_zero, abs_zero]
    exact ⟨isFinite_signedZero _, by positivity⟩
  · exact ⟨isFinite_fl (abs_lt_of_abs_lt he he' hq), abs_value_fl_sub_le_of_lt he he' hq⟩

end operations

/-! ### Approximation of a real number -/

/-- A finite pattern whose value is within d of x. -/
structure Approximates (p : Double) (x d : Real) : Prop where
  finite : isFinite p = true
  error : |((value p : Rat) : Real) - x| ≤ d

namespace Approximates

variable {p q : Double} {x y d d' : Real}

theorem mono (h : Approximates p x d) (hd : d ≤ d') : Approximates p x d' := ⟨h.finite, h.error.trans hd⟩

/-- A result below 2^8 that is rounded once adds the rounding error, 2^(-46) at most, to that of the exact result. -/
theorem of_rounded {exact : Rat} (hexact : |(exact : Real) - x| ≤ d) (hrange : |x| + d < 256)
    (hp : |exact| < (2 : Rat) ^ ((-45 : Int) + 53) → isFinite p = true ∧ |value p - exact| ≤ 2 ^ (-45 : Int) / 2) :
    Approximates p x (d + 1 / 2 ^ 46) := by
  have hbound : |exact| < (2 : Rat) ^ ((-45 : Int) + 53) := by
    have htri := abs_sub_abs_le_abs_sub (exact : Real) x
    have hlt : |(exact : Real)| < ((256 : Rat) : Real) := by
      push_cast
      linarith
    rw [← Rat.cast_abs, Rat.cast_lt] at hlt
    exact hlt.trans_eq (by norm_num)
  obtain ⟨hfin, herror⟩ := hp hbound
  have herror' := (Rat.cast_le (K := Real)).mpr herror
  push_cast at herror'
  have htri := abs_sub_le ((value p : Rat) : Real) (exact : Real) x
  have hunit : (2 : Real) ^ (-45 : Int) / 2 = 1 / 2 ^ 46 := by norm_num
  exact ⟨hfin, by linarith⟩

theorem of_product (hp : isFinite p = true) (hq : isFinite q = true)
    (hexact : |((value p : Rat) : Real) * ((value q : Rat) : Real) - x| ≤ d) (hrange : |x| + d < 256) :
    Approximates (Machine.fmul p q) x (d + 1 / 2 ^ 46) :=
  of_rounded (exact := value p * value q) (by rwa [Rat.cast_mul]) hrange
    (fmul_error (by norm_num) (by norm_num) hp hq)

theorem fadd (hp : Approximates p x d) (hq : Approximates q y d') (hrange : |x + y| + (d + d') < 256) :
    Approximates (Machine.fadd p q) (x + y) (d + d' + 1 / 2 ^ 46) := by
  refine of_rounded (exact := value p + value q) ?_ hrange (fadd_error (by norm_num) (by norm_num) hp.finite hq.finite)
  rw [Rat.cast_add, add_sub_add_comm]
  exact (abs_add_le _ _).trans (add_le_add hp.error hq.error)

/-- Where the error does not reach a half-integer, `clamp_round` gives the integer nearest to x (R118). -/
theorem toNat_clampRound_eq (h : Approximates p x d) {k : Int} (h0 : 0 ≤ k) (h255 : k ≤ 255)
    (hlow : k - 1 / 2 + d ≤ x) (hhigh : x + d < k + 1 / 2) : ((clampRound p).toNat : Int) = k := by
  obtain ⟨hge, hle⟩ := abs_le.mp h.error
  refine Proofs.toNat_clampRound_eq h.finite h0 h255 ?_ ?_
  · rw [← Rat.cast_le (K := Real)]
    push_cast
    linarith
  · rw [← Rat.cast_lt (K := Real)]
    push_cast
    linarith

end Approximates

end Sys2Proof.Proofs
end

section
/-! PROOFS. The accumulator of CONV3 stays in range under legal weights (R119). -/

namespace Sys2Proof.Proofs

open Sys2Proof.Machine

/-- A legal weight is finite and below 2^1000 in magnitude (R180). -/
theorem legalWeight_bound {w : Double} (h : w.extractLsb' 52 11 < 2023) :
    isFinite w = true ∧ |value w| < (2 : Rat) ^ (1000 : Int) := by
  have hexp : expField w ≤ 2022 := Nat.lt_succ_iff.mp h
  have hfrac : fracField w < 2 ^ 52 := (w.extractLsb' 0 52).isLt
  have hmag : magnitude w < 2 ^ 2074 := by
    unfold magnitude
    split_ifs
    · exact hfrac.trans (pow_lt_pow_right₀ one_lt_two (by omega))
    · calc (2 ^ 52 + fracField w) * 2 ^ (expField w - 1) < 2 ^ 53 * 2 ^ (expField w - 1) :=
            Nat.mul_lt_mul_of_pos_right (by omega) (Nat.two_pow_pos _)
        _ = 2 ^ (53 + (expField w - 1)) := (pow_add 2 53 _).symm
        _ ≤ 2 ^ 2074 := pow_le_pow_right₀ one_le_two (by omega)
  refine ⟨bne_iff_ne.mpr (by omega), ?_⟩
  have hpos : (0 : Rat) < 2 ^ (-1074 : Int) := zpow_pos two_pos _
  have hmag' : (magnitude w : Rat) < 2 ^ (2074 : Int) := by exact_mod_cast hmag
  rw [value_eq_withSign, abs_mul, abs_of_pos hpos, ← Int.cast_abs, Int.abs_eq_natAbs, natAbs_withSign, Int.cast_natCast]
  calc (magnitude w : Rat) * 2 ^ (-1074 : Int) < 2 ^ (2074 : Int) * 2 ^ (-1074 : Int) :=
        mul_lt_mul_of_pos_right hmag' hpos
    _ = 2 ^ (1000 : Int) := by rw [← zpow_add₀ two_ne_zero]; norm_num

/-- What one term can add to the accumulator: its product, below 2^1008, and two rounding errors. -/
def termBound : Rat := 3 * 2 ^ (1007 : Int)

theorem termBound_pos : 0 < termBound := by
  unfold termBound
  positivity

/-- Nine terms stay below 2^1012. -/
theorem mul_termBound_lt {n : Nat} (hn : n ≤ 9) : n * termBound < (2 : Rat) ^ (1012 : Int) := by
  have hn' : (n : Rat) ≤ 9 := by exact_mod_cast hn
  have hpos : (0 : Rat) < 2 ^ (1007 : Int) := zpow_pos two_pos _
  calc n * termBound ≤ 9 * termBound := mul_le_mul_of_nonneg_right hn' termBound_pos.le
    _ < 2 ^ (5 : Int) * 2 ^ (1007 : Int) := by
      unfold termBound
      rw [← mul_assoc]
      exact mul_lt_mul_of_pos_right (by norm_num) hpos
    _ = 2 ^ (1012 : Int) := (zpow_add₀ two_ne_zero 5 1007).symm

/-- The rounded product of a legal weight and a sample. -/
theorem product_bound {w : Double} (hw : w.extractLsb' 52 11 < 2023) (b : Byte) :
    isFinite (fmul w (ofInt b.toNat)) = true
      ∧ |value (fmul w (ofInt b.toNat))| ≤ (2 : Rat) ^ (1008 : Int) + 2 ^ (955 : Int) / 2 := by
  obtain ⟨hfin, hlt⟩ := legalWeight_bound hw
  have hsample := standsFor_ofInt_byte b
  have hb : |((b.toNat : Int) : Rat)| ≤ 2 ^ (8 : Int) := by
    rw [Int.cast_natCast, Nat.abs_cast]
    exact_mod_cast b.isLt.le
  have hproduct : |value w * value (ofInt b.toNat)| < (2 : Rat) ^ ((955 : Int) + 53) := by
    rw [abs_mul, hsample.value_eq]
    calc |value w| * |((b.toNat : Int) : Rat)| ≤ |value w| * 2 ^ (8 : Int) :=
          mul_le_mul_of_nonneg_left hb (abs_nonneg _)
      _ < 2 ^ (1000 : Int) * 2 ^ (8 : Int) := mul_lt_mul_of_pos_right hlt (zpow_pos two_pos _)
      _ = 2 ^ ((955 : Int) + 53) := by rw [← zpow_add₀ two_ne_zero]; norm_num
  obtain ⟨hfin', herror⟩ := fmul_error (by norm_num) (by norm_num) hfin hsample.finite hproduct
  have htri := abs_sub_abs_le_abs_sub (value (fmul w (ofInt b.toNat))) (value w * value (ofInt b.toNat))
  rw [show (955 : Int) + 53 = 1008 by norm_num] at hproduct
  exact ⟨hfin', by linarith⟩

theorem accumulate_bound {acc w : Double} {b : Byte} {n : Nat} (hn : n + 1 ≤ 9) (hacc : isFinite acc = true)
    (hle : |value acc| ≤ n * termBound) (hw : w.extractLsb' 52 11 < 2023) :
    isFinite (accumulate acc (w, b)) = true ∧ |value (accumulate acc (w, b))| ≤ (n + 1 : Nat) * termBound := by
  obtain ⟨hproduct, hbound⟩ := product_bound hw b
  have h1008 : (2 : Rat) ^ (1008 : Int) = 2 * 2 ^ (1007 : Int) := zpow_one_add₀ two_ne_zero 1007
  have h955 : (2 : Rat) ^ (955 : Int) ≤ 2 ^ (959 : Int) := zpow_le_zpow_right₀ one_le_two (by norm_num)
  have h959 : (2 : Rat) ^ (959 : Int) ≤ 2 ^ (1007 : Int) := zpow_le_zpow_right₀ one_le_two (by norm_num)
  have hsum := abs_add_le (value acc) (value (fmul w (ofInt b.toNat)))
  have hlimit := mul_termBound_lt hn
  have hterm : (2 : Rat) ^ (1008 : Int) + 2 ^ (955 : Int) / 2 + 2 ^ (959 : Int) / 2 ≤ termBound := by
    unfold termBound
    rw [h1008]
    generalize (2 : Rat) ^ (1007 : Int) = p at *
    generalize (2 : Rat) ^ (959 : Int) = q at *
    generalize (2 : Rat) ^ (955 : Int) = r at *
    linarith
  have hpos : (0 : Rat) < 2 ^ (959 : Int) / 2 := div_pos (zpow_pos two_pos _) two_pos
  have hproduct_le := (le_add_of_nonneg_right hpos.le).trans hterm
  rw [Nat.cast_succ, add_one_mul] at hlimit ⊢
  obtain ⟨hfin, herror⟩ := fadd_error (e := 959) (by norm_num) (by norm_num) hacc hproduct
    (hsum.trans_lt ((add_le_add hle (hbound.trans hproduct_le)).trans_lt hlimit))
  have htri := abs_sub_abs_le_abs_sub (value (fadd acc (fmul w (ofInt b.toNat))))
    (value acc + value (fmul w (ofInt b.toNat)))
  refine ⟨hfin, ?_⟩
  unfold accumulate
  generalize (2 : Rat) ^ (1008 : Int) + 2 ^ (955 : Int) / 2 = p at *
  generalize (2 : Rat) ^ (959 : Int) / 2 = q at *
  linarith

/-- The accumulator after the remaining terms. -/
theorem foldl_accumulate_bound {terms : List (Double × Byte)} (hlegal : ∀ t ∈ terms, t.1.extractLsb' 52 11 < 2023)
    {acc : Double} {n : Nat} (hn : n + terms.length ≤ 9) (hacc : isFinite acc = true)
    (hle : |value acc| ≤ n * termBound) :
    isFinite (terms.foldl accumulate acc) = true ∧ |value (terms.foldl accumulate acc)| < (2 : Rat) ^ (1012 : Int) := by
  induction terms generalizing acc n with
  | nil => exact ⟨hacc, hle.trans_lt (mul_termBound_lt hn)⟩
  | cons t terms ih =>
    obtain ⟨ht, hrest⟩ := List.forall_mem_cons.mp hlegal
    rw [List.length_cons] at hn
    obtain ⟨hfin, hbound⟩ := accumulate_bound (b := t.2) (by omega) hacc hle ht
    exact ih hrest (by omega) hfin hbound

/-- Settles O39: after n terms the accumulator is at most n times the bound of a term. -/
theorem convolutionNeverOverflows : Obligations.ConvolutionNeverOverflows := by
  intro weights samples hlength hlegal
  refine foldl_accumulate_bound (n := 0) (fun t ht => hlegal _ (List.of_mem_zip ht).1) ?_ (isFinite_signedZero false) ?_
  · rw [List.length_zip]
    omega
  · rw [show positiveZero = signedZero false from rfl, value_signedZero]
    simp

end Sys2Proof.Proofs
end

section
/-! PROOFS. GRAY against decimal arithmetic, and GRAYFX against GRAY (R142, R144). -/

namespace Sys2Proof.Proofs

open Sys2Proof.Machine

/-- A weight of the luma is its decimal fraction to within 2^(-54). -/
structure IsDecimalWeight (w : Double) (k : Nat) : Prop where
  finite : isFinite w = true
  error : |value w - k / 1000| ≤ 1 / 2 ^ 54
  le : k ≤ 1000

theorem isDecimalWeight_weightR : IsDecimalWeight weightR 299 := ⟨by decide, by decide +kernel, by decide⟩
theorem isDecimalWeight_weightG : IsDecimalWeight weightG 587 := ⟨by decide, by decide +kernel, by decide⟩
theorem isDecimalWeight_weightB : IsDecimalWeight weightB 114 := ⟨by decide, by decide +kernel, by decide⟩

/-- A product of the luma is the decimal product to within 2^(-45). -/
theorem approximates_weighted {w : Double} {k : Nat} (hw : IsDecimalWeight w k) (b : Byte) :
    Approximates (fmul w (ofInt b.toNat)) (k * b.toNat / 1000) (1 / 2 ^ 45) := by
  have hsample := standsFor_ofInt_byte b
  have hb : (b.toNat : Real) ≤ 255 := by exact_mod_cast Nat.le_of_lt_succ b.isLt
  have hb0 : (0 : Real) ≤ b.toNat := Nat.cast_nonneg _
  have hk : (k : Real) ≤ 1000 := by exact_mod_cast hw.le
  have hk0 : (0 : Real) ≤ k := Nat.cast_nonneg _
  have herror : |((value w : Rat) : Real) - k / 1000| ≤ 1 / 2 ^ 54 := by
    have := (Rat.cast_le (K := Real)).mpr hw.error
    push_cast at this
    exact this
  refine (Approximates.of_product (d := 1 / 2 ^ 46) hw.finite hsample.finite ?_ ?_).mono (by norm_num)
  · rw [hsample.value_eq]
    push_cast
    rw [mul_div_right_comm, ← sub_mul, abs_mul, abs_of_nonneg hb0]
    calc _ ≤ (1 / 2 ^ 54 : Real) * 255 := mul_le_mul herror hb hb0 (by norm_num)
      _ ≤ 1 / 2 ^ 46 := by norm_num
  · rw [abs_of_nonneg (by positivity)]
    have : (k : Real) * b.toNat ≤ 1000 * 255 := mul_le_mul hk hb hb0 (by norm_num)
    linarith [show (1 : Real) / 2 ^ 46 < 1 by norm_num]

/-- The decimal luma in thousandths (R142). -/
def decimalLuma (r g b : Byte) : Nat := 299 * r.toNat + 587 * g.toNat + 114 * b.toNat

theorem decimalLuma_le (r g b : Byte) : decimalLuma r g b ≤ 255000 := by
  have hr := r.isLt
  have hg := g.isLt
  have hb := b.isLt
  unfold decimalLuma
  omega

/-- Three products and two sums stay within 2^(-42) of the decimal luma. -/
theorem approximates_lumaDouble (r g b : Byte) :
    Approximates (lumaDouble r g b) (decimalLuma r g b / 1000) (1 / 2 ^ 42) := by
  have hle : (decimalLuma r g b : Real) ≤ 255000 := by exact_mod_cast decimalLuma_le r g b
  unfold decimalLuma at hle ⊢
  push_cast at hle ⊢
  have hr0 : (0 : Real) ≤ r.toNat := Nat.cast_nonneg _
  have hg0 : (0 : Real) ≤ g.toNat := Nat.cast_nonneg _
  have hb0 : (0 : Real) ≤ b.toNat := Nat.cast_nonneg _
  have hred := approximates_weighted isDecimalWeight_weightR r
  have hgreen := approximates_weighted isDecimalWeight_weightG g
  have hblue := approximates_weighted isDecimalWeight_weightB b
  push_cast at hred hgreen hblue
  have hfirst := hred.fadd hgreen (by rw [abs_of_nonneg (by positivity)]; norm_num; linarith)
  have hboth := hfirst.fadd hblue (by rw [abs_of_nonneg (by positivity)]; norm_num; linarith)
  have h := hboth.mono (d' := 1 / 2 ^ 42) (by norm_num)
  rwa [← add_div, ← add_div] at h

/-- Settles O41: away from a tie the error is below a thousandth, and at a tie it decides between two neighbours. -/
theorem grayIsTheDecimalLumaRounded : Obligations.GrayIsTheDecimalLumaRounded := by
  intro r g b sum
  have happrox : Approximates (lumaDouble r g b) (sum / 1000) (1 / 2 ^ 42) := approximates_lumaDouble r g b
  have hsum : sum ≤ 255000 := decimalLuma_le r g b
  have hk255 : (sum + 500) / 1000 ≤ 255 := by omega
  have hdiv := Nat.div_add_mod (sum + 500) 1000
  have hmod := Nat.mod_lt (sum + 500) (by norm_num : 1000 > 0)
  generalize (sum + 500) / 1000 = k at *
  have hsmall : (1 : Real) / 2 ^ 42 < 1 / 1000 := by norm_num
  split_ifs with htie
  · have htie' : (sum : Real) + 500 = 1000 * k := by exact_mod_cast (by omega : sum + 500 = 1000 * k)
    obtain ⟨hge, hle⟩ := abs_le.mp happrox.error
    rcases lt_or_ge (value (lumaDouble r g b)) ((2 * (k : Int) - 1 : Int) / 2) with hdown | hup
    · right
      have hlow : (2 * ((k : Int) - 1) - 1 : Int) / 2 ≤ value (lumaDouble r g b) := by
        rw [← Rat.cast_le (K := Real)]
        push_cast
        linarith
      have hhigh : value (lumaDouble r g b) < (2 * ((k : Int) - 1) + 1 : Int) / 2 := by
        rw [show 2 * ((k : Int) - 1) + 1 = 2 * (k : Int) - 1 by ring]
        exact hdown
      have hentry := toNat_clampRound_eq happrox.finite (by omega) (by omega) hlow hhigh
      unfold grayPixel
      omega
    · left
      have hhigh : value (lumaDouble r g b) < (2 * (k : Int) + 1 : Int) / 2 := by
        rw [← Rat.cast_lt (K := Real)]
        push_cast
        linarith
      have hentry := toNat_clampRound_eq happrox.finite (by omega) (by omega) hup hhigh
      unfold grayPixel
      omega
  · have hlow : (1000 * k + 1 : Real) ≤ sum + 500 := by exact_mod_cast (by omega : 1000 * k + 1 ≤ sum + 500)
    have hhigh : (sum + 500 + 1 : Real) ≤ 1000 * k + 1000 := by exact_mod_cast (by omega : sum + 500 + 1 ≤ 1000 * k + 1000)
    refine Int.natCast_inj.mp (happrox.toNat_clampRound_eq (by omega) (by omega) ?_ ?_)
    · push_cast
      linarith
    · push_cast
      linarith

/-- Settles O40: the fixed-point weights differ from the decimal ones by less than half a level in sum, so the two results
differ by one level at most, and the decimal rounding is never the lower one. -/
theorem grayfxIsGrayOrOneBelow : Obligations.GrayfxIsGrayOrOneBelow := by
  intro r g b
  have hgray := grayIsTheDecimalLumaRounded r g b
  have hr := r.isLt
  have hg := g.isLt
  have hb := b.isLt
  rw [toNat_grayfxPixel]
  dsimp only at hgray
  split_ifs at hgray
  · omega
  · omega

end Sys2Proof.Proofs
end

section
/-! PROOFS. Rounding keeps the order of numbers, and so does `clamp_round` (R113, R118). -/

namespace Sys2Proof.Proofs

open Sys2Proof.Machine

theorem IsNearestEven.mono {x y : Rat} {m n : Int} (hm : IsNearestEven x m) (hn : IsNearestEven y n) (h : x ≤ y) :
    m ≤ n := by
  by_contra! hlt
  have hlt' : (n : Rat) + 1 ≤ m := by exact_mod_cast hlt
  have hxy : x = y := by
    have := (abs_le.mp hm.abs_sub_le).1
    have := (abs_le.mp hn.abs_sub_le).2
    linarith
  exact hlt.ne (hn.unique (hxy ▸ hm))

section bounded

variable {q : Rat} (hq : |q| < (2 : Rat) ^ (1023 : Int)) (h0 : 0 ≤ q)
include hq h0

theorem value_fl_of_nonneg : value (fl q) = unitCount q * unitOf q := by
  obtain ⟨-, hvalue, -⟩ := fl_of_not_overflow (not_overflow_of_abs_lt hq)
  rw [hvalue, decide_eq_false (not_lt.mpr h0)]
  rfl

end bounded

/-- A larger unit is at least twice as large. -/
theorem two_mul_unitOf_le {q r : Rat} (h : unitExponent q < unitExponent r) : 2 * unitOf q ≤ unitOf r := by
  unfold unitOf
  rw [← zpow_one_add₀ two_ne_zero]
  exact zpow_le_zpow_right₀ one_le_two (by omega)

/-- A number with a larger unit is the larger number. -/
theorem lt_of_unitExponent_lt {q r : Rat} (h : unitExponent q < unitExponent r) : |q| < |r| := by
  have hlow := (le_div_iff₀ (unitOf_pos r)).mp (le_abs_div_unitOf (q := r) (by omega))
  have hhigh := (div_lt_iff₀ (unitOf_pos q)).mp (abs_div_unitOf_lt q)
  linarith [two_mul_unitOf_le h]

/-- In one binade the counts of units are ordered, and from a binade to a larger one every count of units is passed. -/
theorem value_fl_mono {q r : Rat} (h0 : 0 ≤ q) (h : q ≤ r) (hr : |r| < (2 : Rat) ^ (1023 : Int)) :
    value (fl q) ≤ value (fl r) := by
  have habs : |q| ≤ |r| := by rwa [abs_of_nonneg h0, abs_of_nonneg (h0.trans h)]
  rw [value_fl_of_nonneg (habs.trans_lt hr) h0, value_fl_of_nonneg hr (h0.trans h)]
  rcases lt_trichotomy (unitExponent q) (unitExponent r) with hlt | heq | hgt
  · have hcount : (unitCount q : Rat) ≤ 2 ^ 53 := by exact_mod_cast unitCount_le q
    have hcount' : (2 : Rat) ^ 52 ≤ unitCount r := by exact_mod_cast le_unitCount (q := r) (by omega)
    calc (unitCount q : Rat) * unitOf q ≤ 2 ^ 53 * unitOf q := mul_le_mul_of_nonneg_right hcount (unitOf_pos q).le
      _ = 2 ^ 52 * (2 * unitOf q) := by ring
      _ ≤ 2 ^ 52 * unitOf r := by linarith [two_mul_unitOf_le hlt]
      _ ≤ unitCount r * unitOf r := mul_le_mul_of_nonneg_right hcount' (unitOf_pos r).le
  · have hunit : unitOf q = unitOf r := by rw [unitOf, unitOf, heq]
    have hcount := (isNearestEven_unitCount q).mono (isNearestEven_unitCount r)
      (by rw [hunit]; exact div_le_div_of_nonneg_right habs (unitOf_pos r).le)
    rw [hunit]
    exact mul_le_mul_of_nonneg_right (by exact_mod_cast hcount) (unitOf_pos r).le
  · exact absurd (lt_of_unitExponent_lt hgt) (not_lt.mpr habs)

theorem roundHalfAway_mono {x y : Rat} (h : x ≤ y) : roundHalfAway x ≤ roundHalfAway y := by
  unfold roundHalfAway
  split_ifs with hx hy hy
  · exact Int.floor_le_floor (by linarith)
  · exact absurd (hx.trans h) hy
  · exact (neg_nonpos.mpr (Int.floor_nonneg.mpr (by linarith))).trans (Int.floor_nonneg.mpr (by linarith))
  · exact neg_le_neg (Int.floor_le_floor (by linarith))

theorem toNat_clampRound_mono {f g : Double} (hf : isFinite f = true) (hg : isFinite g = true) (h : value f ≤ value g) :
    (clampRound f).toNat ≤ (clampRound g).toNat := by
  have hround := roundHalfAway_mono h
  have hf' := toNat_clampRound_eq_saturated hf
  have hg' := toNat_clampRound_eq_saturated hg
  omega

end Sys2Proof.Proofs
end

section
/-! PROOFS. The operands i/255 of POW, and the real power at an operand and at the number it stands for (R123, R170). -/

namespace Sys2Proof.Proofs

open Sys2Proof.Machine

/-! ### Relative error -/

/-- In the normal range rounding moves a number by at most 2^(-53) of itself. -/
theorem abs_value_fl_sub_le_mul {q : Rat} (hlow : (2 : Rat) ^ (-1021 : Int) ≤ |q|) (hq : |q| < (2 : Rat) ^ (1023 : Int)) :
    |value (fl q) - q| ≤ |q| / 2 ^ 53 := by
  have hnormal : unitExponent q ≠ 0 := fun h0 => by
    have hlt := (div_lt_iff₀ (unitOf_pos q)).mp (abs_div_unitOf_lt q)
    rw [← zpow_natCast, unitOf, h0, ← zpow_add₀ two_ne_zero] at hlt
    exact absurd (hlow.trans_lt hlt) (by simp)
  have hunit := (le_div_iff₀ (unitOf_pos q)).mp (le_abs_div_unitOf hnormal)
  calc |value (fl q) - q| ≤ unitOf q / 2 := abs_value_fl_sub_le hq
    _ = 2 ^ 52 * unitOf q / 2 ^ 53 := by ring
    _ ≤ |q| / 2 ^ 53 := by linarith

/-! ### The operands (R170) -/

section operands

variable {i : Nat} (hi : i ≤ 255)
include hi

theorem abs_div_255_lt : |(i : Rat) / 255| < (2 : Rat) ^ (1023 : Int) := by
  have hle : (i : Rat) ≤ 255 := by exact_mod_cast hi
  rw [abs_of_nonneg (by positivity)]
  calc (i : Rat) / 255 < 2 ^ (1 : Int) := by linarith
    _ ≤ 2 ^ (1023 : Int) := zpow_le_zpow_right₀ one_le_two (by norm_num)

theorem powOperand_rounds :
    isFinite (powOperand i) = true ∧ value (powOperand i) = value (fl ((i : Rat) / 255)) := by
  have hi53 : |(i : Int)| < 2 ^ 53 := abs_lt.mpr (by omega)
  have hquotient : value (ofInt i) / value double255 = (i : Rat) / 255 := by
    rw [value_ofInt hi53, value_double255, Int.cast_natCast]
  have h := fdiv_rounds (isFinite_ofInt hi53) isFinite_double255 (by rw [value_double255]; norm_num)
    (by rw [hquotient]; exact abs_div_255_lt hi)
  rwa [hquotient] at h

/-- The operand stands for i/255 to within 2^(-53) of it, and for 0 exactly. -/
theorem powOperand_error : |((value (powOperand i) : Rat) : Real) - i / 255| ≤ i / 255 / 2 ^ 53 := by
  have h : |value (powOperand i) - i / 255| ≤ (i : Rat) / 255 / 2 ^ 53 := by
    rw [(powOperand_rounds hi).2]
    rcases Nat.eq_zero_or_pos i with rfl | hpos
    · decide +kernel
    · have hpos' : (1 : Rat) ≤ i := by exact_mod_cast hpos
      have habs : |(i : Rat) / 255| = i / 255 := abs_of_nonneg (by positivity)
      have hlow : (2 : Rat) ^ (-1021 : Int) ≤ |(i : Rat) / 255| := by
        rw [habs]
        calc (2 : Rat) ^ (-1021 : Int) ≤ 2 ^ (-8 : Int) := zpow_le_zpow_right₀ one_le_two (by norm_num)
          _ ≤ i / 255 := by norm_num; linarith
      have := abs_value_fl_sub_le_mul hlow (abs_div_255_lt hi)
      rwa [habs] at this
  have h' := (Rat.cast_le (K := Real)).mpr h
  push_cast at h'
  exact h'

theorem powOperand_mem : 0 ≤ value (powOperand i) ∧ value (powOperand i) ≤ 1 :=
  value_powOperand_mem i (List.mem_range.mpr (by omega))

end operands

theorem exp_neg_two_mul_le {d : Real} (hd0 : 0 ≤ d) (hd : d ≤ 1 / 2) : Real.exp (-(2 * d)) ≤ 1 - d := by
  have hexp := Real.add_one_le_exp (2 * d)
  rw [Real.exp_neg]
  calc (Real.exp (2 * d))⁻¹ ≤ (2 * d + 1)⁻¹ := inv_anti₀ (by linarith) hexp
    _ ≤ 1 - d := by
      rw [inv_le_iff_one_le_mul₀ (by linarith)]
      nlinarith

/-- The relative error of a power is at most about g times that of its base. -/
theorem abs_rpow_sub_rpow_le {x y g d : Real} (hx : 0 ≤ x) (hx1 : x ≤ 1) (hg : 0 ≤ g) (hd0 : 0 ≤ d) (hd : d ≤ 1 / 2)
    (hdg : d * g ≤ 1) (h : |y - x| ≤ x * d) : |y ^ g - x ^ g| ≤ 2 * (d * g) := by
  obtain ⟨hge, hle⟩ := abs_le.mp h
  have hdg0 : 0 ≤ d * g := mul_nonneg hd0 hg
  have hpow0 : 0 ≤ x ^ g := Real.rpow_nonneg hx g
  have hpow1 : x ^ g ≤ 1 := Real.rpow_le_one hx hx1 hg
  have hlow : x ^ g * (1 - 2 * (d * g)) ≤ y ^ g := by
    calc x ^ g * (1 - 2 * (d * g)) ≤ x ^ g * Real.exp (-(2 * d)) ^ g := by
          refine mul_le_mul_of_nonneg_left ?_ hpow0
          rw [← Real.exp_mul]
          linarith [Real.add_one_le_exp (-(2 * d) * g)]
      _ = (x * Real.exp (-(2 * d))) ^ g := (Real.mul_rpow hx (Real.exp_pos _).le).symm
      _ ≤ y ^ g := by
          refine Real.rpow_le_rpow (mul_nonneg hx (Real.exp_pos _).le) ?_ hg
          linarith [mul_le_mul_of_nonneg_left (exp_neg_two_mul_le hd0 hd) hx]
  have hhigh : y ^ g ≤ x ^ g * (1 + 2 * (d * g)) := by
    calc y ^ g ≤ (x * Real.exp d) ^ g := by
          have hy : 0 ≤ y := by linarith [mul_le_mul_of_nonneg_left hd hx]
          refine Real.rpow_le_rpow hy ?_ hg
          linarith [mul_le_mul_of_nonneg_left (Real.add_one_le_exp d) hx]
      _ = x ^ g * Real.exp d ^ g := Real.mul_rpow hx (Real.exp_pos _).le
      _ ≤ x ^ g * (1 + 2 * (d * g)) := by
          refine mul_le_mul_of_nonneg_left ?_ hpow0
          have hexp := Real.abs_exp_sub_one_le (x := d * g) (by rwa [abs_of_nonneg hdg0])
          rw [abs_of_nonneg hdg0] at hexp
          rw [← Real.exp_mul]
          linarith [le_abs_self (Real.exp (d * g) - 1)]
  have hgap : x ^ g * (2 * (d * g)) ≤ 2 * (d * g) := mul_le_of_le_one_left (by linarith) hpow1
  rw [abs_le]
  constructor
  · linarith
  · linarith

end Sys2Proof.Proofs
end

section
/-! PROOFS. The block's power function has its named properties, and none that R123 allows is shut out (R123). -/

namespace Sys2Proof.Proofs

open Sys2Proof.Machine

/-! ### The cases of `powFrom` -/

section call

variable {i : Nat} (hi : i ≤ 255) {g : Double} (hg : legalGamma g = true)
include hi hg

/-- On the operands of R123, the values that POW-ZERO, POW-ONE and POW-ID fix, and elsewhere the routine's or the
truncated power. -/
theorem powFrom_call (raw : Double → Double → Double) :
    powFrom raw (powOperand i) g =
      if powOperand i = positiveZero then positiveZero
      else if powOperand i = doubleOne then doubleOne
      else if g = doubleOne then powOperand i
      else if inUnitInterval (raw (powOperand i) g) && isAccuratePower (powOperand i) g (raw (powOperand i) g) then
        raw (powOperand i) g
      else truncatedPower (powOperand i) g := by
  unfold powFrom
  rw [isPowCall_powOperand hi hg, Bool.not_true, if_neg Bool.false_ne_true]

end call

theorem powFrom_of_not_call (raw : Double → Double → Double) {x g : Double} (h : isPowCall x g = false) :
    powFrom raw x g = raw x g := by
  unfold powFrom
  rw [h, Bool.not_false, if_pos rfl]

theorem inUnitInterval_iff (p : Double) : inUnitInterval p = true ↔ isFinite p = true ∧ 0 ≤ value p ∧ value p ≤ 1 := by
  unfold inUnitInterval
  rw [Bool.and_eq_true, Bool.and_eq_true, decide_eq_true_iff, decide_eq_true_iff, and_assoc]

theorem value_doubleOne : value doubleOne = 1 := by exact_mod_cast standsFor_doubleOne.value_eq

theorem value_positiveZero : value positiveZero = 0 := value_signedZero false

theorem inUnitInterval_powOperand {i : Nat} (hi : i ≤ 255) : inUnitInterval (powOperand i) = true :=
  (inUnitInterval_iff _).mpr ⟨(powOperand_rounds hi).1, powOperand_mem hi⟩

/-- Whatever the routine is, the result has POW-RANGE and POW-ACC. -/
theorem powFrom_spec (raw : Double → Double → Double) {i : Nat} (hi : i ≤ 255) {g : Double} (hg : legalGamma g = true) :
    inUnitInterval (powFrom raw (powOperand i) g) = true
      ∧ |((value (powFrom raw (powOperand i) g) : Rat) : Real)
          - ((value (powOperand i) : Rat) : Real) ^ ((value g : Rat) : Real)| ≤ (1 : Real) / 2 ^ 40 := by
  obtain ⟨hx0, hx1⟩ := powOperand_mem hi
  have hpos := value_pos_of_legalGamma hg
  have hg0 : ((value g : Rat) : Real) ≠ 0 := by exact_mod_cast hpos.ne'
  have hunit := inUnitInterval_powOperand hi
  rw [powFrom_call hi hg]
  split_ifs with hzero hone hid hraw
  · rw [hzero] at hunit ⊢
    refine ⟨hunit, ?_⟩
    rw [value_positiveZero, Rat.cast_zero, Real.zero_rpow hg0, sub_zero, abs_zero]
    positivity
  · rw [hone] at hunit ⊢
    refine ⟨hunit, ?_⟩
    rw [value_doubleOne, Rat.cast_one, Real.one_rpow, sub_self, abs_zero]
    positivity
  · refine ⟨hunit, ?_⟩
    rw [hid, value_doubleOne, Rat.cast_one, Real.rpow_one, sub_self, abs_zero]
    positivity
  · rw [Bool.and_eq_true, isAccuratePower_iff hx0 hpos] at hraw
    exact hraw
  · have h := truncatedPower_accurate hx0 hx1 hpos
    rwa [isAccuratePower_iff hx0 hpos] at h

/-! ### The operands 0 and 1 -/

theorem powOperand_zero : powOperand 0 = positiveZero := by decide +kernel

theorem powOperand_255 : powOperand 255 = doubleOne := by decide +kernel

/-- Only i = 0 gives the operand 0, and only i = 255 the operand 1. -/
theorem eq_of_value_powOperand {i j : Nat} (hi : i ≤ 255) (hj : value (powOperand i) = j) : i = 255 * j := by
  have herror := powOperand_error hi
  have hle : (i : Real) ≤ 255 := by exact_mod_cast hi
  have hsmall : (i : Real) / 255 / 2 ^ 53 < 1 / 255 := by
    rw [div_div, div_lt_div_iff₀ (by norm_num) (by norm_num)]
    linarith
  rw [hj, Rat.cast_natCast] at herror
  have hdist : |((255 * j - i : Int) : Real)| < 1 := by
    push_cast
    rw [show (255 : Real) * j - i = (j - i / 255) * 255 by ring, abs_mul, abs_of_pos (by norm_num : (0 : Real) < 255)]
    linarith
  have hzero : (255 * j - i : Int) = 0 := Int.abs_lt_one_iff.mp (by exact_mod_cast hdist)
  omega

/-! ### The named properties -/

theorem powRange_pow : PowRange pow := fun _ _ hi hg => (powFrom_spec _ hi hg).1

theorem powAcc_pow : PowAcc pow := fun _ hg _ hi => (powFrom_spec _ hi hg).2

theorem powZero_pow : PowZero pow := fun g hg => by
  have h := powFrom_call (Nat.zero_le 255) hg Config.powRaw
  rwa [powOperand_zero, if_pos rfl] at h

theorem powOne_pow : PowOne pow := fun g hg => by
  have h := powFrom_call le_rfl hg Config.powRaw
  rwa [powOperand_255, if_neg (by decide), if_pos rfl] at h

theorem powId_pow : PowId pow := fun i hi => by
  have h := powFrom_call hi (g := doubleOne) (by decide) Config.powRaw
  rw [if_pos rfl] at h
  refine h.trans ?_
  split_ifs with hzero hone
  · exact hzero.symm
  · exact hone.symm
  · rfl

/-- Settles O50. -/
theorem powerFunctionHasItsNamedProperties : Obligations.PowerFunctionHasItsNamedProperties :=
  ⟨powRange_pow, powZero_pow, powOne_pow, powId_pow, powAcc_pow⟩

/-- Settles O51: a result that meets the conditions is the one of its case, and other operands are no call of R123. -/
theorem allowedPowerResultsAreKept : Obligations.AllowedPowerResultsAreKept := by
  refine ⟨fun f i g hi hg => ?_, fun f x g h => powFrom_of_not_call f ?_⟩
  · intro r hunit hacc hzero hone hid
    rw [powFrom_call hi hg]
    split_ifs with h0 h1 hg1 hraw
    · have hi0 : i = 255 * 0 := eq_of_value_powOperand hi (by rw [h0, value_positiveZero, Nat.cast_zero])
      exact (hzero hi0).symm
    · have hi1 : i = 255 * 1 := eq_of_value_powOperand hi (by rw [h1, value_doubleOne, Nat.cast_one])
      exact (hone hi1).symm
    · exact (hid hg1).symm
    · rfl
    · refine absurd ?_ hraw
      rw [Bool.and_eq_true, isAccuratePower_iff (powOperand_mem hi).1 (value_pos_of_legalGamma hg)]
      exact ⟨hunit, hacc⟩
  · unfold isPowCall
    rcases h with hg | hx
    · rw [hg, Bool.false_and]
    · rw [Bool.and_eq_false_iff]
      right
      rw [List.any_eq_false]
      intro i hi
      rw [beq_iff_eq]
      exact hx i (Nat.lt_succ_iff.mp (List.mem_range.mp hi))

end Sys2Proof.Proofs
end

section
/-! PROOFS. The table of the gamma corrector and its command (R170 to R173). -/

namespace Sys2Proof.Proofs

open Sys2Proof.Machine

/-! ### A table entry from an accurate power (R172) -/

/-- A pattern that is not finite stands for no number below 2^1024. -/
theorem isFinite_of_abs_value_lt {p : Double} (h : |value p| < (2 : Rat) ^ (1024 : Int)) : isFinite p = true := by
  by_contra hinf
  have hexp : expField p = 2047 := by simpa [isFinite] using hinf
  have hmag : 2 ^ 2098 ≤ magnitude p := by
    unfold magnitude
    rw [hexp, if_neg (by decide)]
    calc 2 ^ 2098 ≤ 2 ^ (52 + (2047 - 1)) := pow_le_pow_right₀ one_le_two (by norm_num)
      _ = 2 ^ 52 * 2 ^ (2047 - 1) := pow_add 2 52 (2047 - 1)
      _ ≤ (2 ^ 52 + fracField p) * 2 ^ (2047 - 1) := Nat.mul_le_mul_right _ (Nat.le_add_right _ _)
  have hpos : (0 : Rat) < 2 ^ (-1074 : Int) := zpow_pos two_pos _
  have hmag' : (2 : Rat) ^ (2098 : Int) ≤ magnitude p := by exact_mod_cast hmag
  rw [value_eq_withSign, abs_mul, abs_of_pos hpos, ← Int.cast_abs, Int.abs_eq_natAbs, natAbs_withSign,
    Int.cast_natCast] at h
  have hle := mul_le_mul_of_nonneg_right hmag' hpos.le
  rw [← zpow_add₀ two_ne_zero] at hle
  exact absurd (hle.trans_lt h) (by norm_num)

/-- The operand of `clamp_round` from a power that is close to y in [0, 1]. -/
theorem approximates_scaled {p : Double} {y d : Real} (hy0 : 0 ≤ y) (hy1 : y ≤ 1) (hd : d ≤ 1 / 2 ^ 39)
    (h : |((value p : Rat) : Real) - y| ≤ d) : Approximates (fmul double255 p) (255 * y) (255 * d + 1 / 2 ^ 46) := by
  have hfin : isFinite p = true := by
    refine isFinite_of_abs_value_lt ?_
    have htri := abs_sub_abs_le_abs_sub ((value p : Rat) : Real) y
    rw [abs_of_nonneg hy0] at htri
    have hlt : |((value p : Rat) : Real)| < ((2 : Rat) : Real) := by
      push_cast
      linarith [show (1 : Real) / 2 ^ 39 < 1 by norm_num]
    rw [← Rat.cast_abs, Rat.cast_lt] at hlt
    calc |value p| < 2 ^ (1 : Int) := by rwa [zpow_one]
      _ ≤ 2 ^ (1024 : Int) := zpow_le_zpow_right₀ one_le_two (by norm_num)
  refine .of_product isFinite_double255 hfin ?_ ?_
  · rw [value_double255, Rat.cast_ofNat, ← mul_sub, abs_mul, abs_of_pos (by norm_num : (0 : Real) < 255)]
    linarith
  · rw [abs_of_nonneg (by positivity)]
    linarith [show 255 * (1 / 2 ^ 39 : Real) < 1 by norm_num]

/-- Away from a tie the integer nearest to x is what `clamp_round` gives. -/
theorem toNat_clampRound_of_no_tie {p : Double} {x d : Real} (h : Approximates p x d) (hx0 : 0 ≤ x) (hx255 : x ≤ 255)
    (htie : ∀ k : Int, d < |x - (k + 1 / 2)|) : ((clampRound p).toNat : Int) = ⌊x + 1 / 2⌋ := by
  have hfloor := Int.floor_le (x + 1 / 2)
  have hfloor' := Int.lt_floor_add_one (x + 1 / 2)
  have h0 : 0 ≤ ⌊x + 1 / 2⌋ := Int.floor_nonneg.mpr (by linarith)
  have h255 : ⌊x + 1 / 2⌋ < 256 := Int.floor_lt.mpr (by push_cast; linarith)
  have hlow := htie (⌊x + 1 / 2⌋ - 1)
  have hhigh := htie ⌊x + 1 / 2⌋
  rw [abs_of_nonneg (by push_cast; linarith)] at hlow
  rw [abs_of_neg (by linarith)] at hhigh
  push_cast at hlow
  exact h.toNat_clampRound_eq h0 (by omega) (by linarith) (by linarith)

/-- The real value of a table entry (R172). -/
noncomputable def realEntry (g : Double) (i : Nat) : Real := 255 * ((i : Real) / 255) ^ ((value g : Rat) : Real)

section entry

variable {i : Nat} (hi : i ≤ 255) {g : Double} (hg0 : 0 < value g) (hg : value g ≤ 1024)
include hi hg0

theorem realPower_mem : 0 ≤ ((i : Real) / 255) ^ ((value g : Rat) : Real)
    ∧ ((i : Real) / 255) ^ ((value g : Rat) : Real) ≤ 1 := by
  have hle : (i : Real) ≤ 255 := by exact_mod_cast hi
  exact ⟨Real.rpow_nonneg (by positivity) _,
    Real.rpow_le_one (by positivity) (by linarith) (by exact_mod_cast hg0.le)⟩

include hg

/-- The accuracy of POW and of its operand: together less than 2^(-31) on the scale of samples (R172). -/
theorem approximates_gammaEntry {f : Double → Double → Double} (hacc : PowAccAt f g) :
    Approximates (fmul double255 (f (powOperand i) g)) (realEntry g i) (1 / 2 ^ 31) := by
  obtain ⟨hy0, hy1⟩ := realPower_mem hi hg0
  have hle : (i : Real) ≤ 255 := by exact_mod_cast hi
  have hg' : ((value g : Rat) : Real) ≤ 1024 := by exact_mod_cast hg
  have hdg : 1 / 2 ^ 53 * ((value g : Rat) : Real) ≤ 1 / 2 ^ 43 := by
    calc 1 / 2 ^ 53 * ((value g : Rat) : Real) ≤ 1 / 2 ^ 53 * 1024 := mul_le_mul_of_nonneg_left hg' (by positivity)
      _ = 1 / 2 ^ 43 := by norm_num
  have hoperand : |((value (powOperand i) : Rat) : Real) ^ ((value g : Rat) : Real)
      - ((i : Real) / 255) ^ ((value g : Rat) : Real)| ≤ 1 / 2 ^ 42 := by
    refine (abs_rpow_sub_rpow_le (d := 1 / 2 ^ 53) (by positivity) (by linarith) (by exact_mod_cast hg0.le) (by positivity)
      (by norm_num) (hdg.trans (by norm_num)) ?_).trans (by linarith)
    rw [mul_one_div]
    exact powOperand_error hi
  have htri := abs_sub_le ((value (f (powOperand i) g) : Rat) : Real)
    (((value (powOperand i) : Rat) : Real) ^ ((value g : Rat) : Real)) (((i : Real) / 255) ^ ((value g : Rat) : Real))
  exact (approximates_scaled (d := 1 / 2 ^ 40 + 1 / 2 ^ 42) hy0 hy1 (by norm_num)
    (htri.trans (add_le_add (hacc i hi) hoperand))).mono (by norm_num)

theorem toNat_gammaEntry_of_no_tie {f : Double → Double → Double} (hacc : PowAccAt f g)
    (htie : ∀ k : Int, 1 / 2 ^ 31 < |realEntry g i - (k + 1 / 2)|) :
    ((gammaEntry f g i).toNat : Int) = ⌊realEntry g i + 1 / 2⌋ := by
  obtain ⟨hy0, hy1⟩ := realPower_mem hi hg0
  exact toNat_clampRound_of_no_tie (approximates_gammaEntry hi hg0 hg hacc) (mul_nonneg (by norm_num) hy0)
    (mul_le_of_le_one_right (by norm_num) hy1) htie

end entry

/-! ### Exponents that determine the whole table (R171, R172) -/

/-- At g = 1.0 the real entry is the sample itself. -/
theorem toNat_gammaEntry_one {f : Double → Double → Double} (hid : PowId f) {i : Nat} (hi : i ≤ 255) :
    (gammaEntry f doubleOne i).toNat = i := by
  have hle : (i : Real) ≤ 255 := by exact_mod_cast hi
  have h := approximates_scaled (p := powOperand i) (d := 1 / 2 ^ 53) (by positivity : (0 : Real) ≤ i / 255) (by linarith)
    (by norm_num) ((powOperand_error hi).trans (by linarith))
  rw [mul_div_cancel₀ _ (by norm_num : (255 : Real) ≠ 0)] at h
  unfold gammaEntry
  rw [hid i hi]
  have hsmall : 255 * (1 / 2 ^ 53 : Real) + 1 / 2 ^ 46 < 1 / 2 := by norm_num
  refine Int.natCast_inj.mp (h.toNat_clampRound_eq (by omega) (by omega) ?_ ?_)
  · rw [Int.cast_natCast]
    linarith
  · rw [Int.cast_natCast]
    linarith

theorem realEntry_two (i : Nat) : realEntry 0x4000000000000000 i = (i * i : Real) / 255 := by
  have hvalue : value 0x4000000000000000 = 2 := by decide +kernel
  unfold realEntry
  rw [hvalue, Rat.cast_ofNat, Real.rpow_two]
  ring

/-- 2·i² is even where 255·(2k + 1) is odd, so no entry for g = 2.0 is near a tie. -/
theorem realEntry_two_no_tie (i : Nat) (k : Int) :
    1 / 2 ^ 31 < |realEntry 0x4000000000000000 i - (k + 1 / 2)| := by
  have hodd : (1 : Real) ≤ |((2 * (i * i) - 255 * (2 * k + 1) : Int) : Real)| := by
    exact_mod_cast Int.one_le_abs (by omega)
  rw [realEntry_two, show (i * i : Real) / 255 - (k + 1 / 2) = ((2 * (i * i) - 255 * (2 * k + 1) : Int) : Real) / 510 by
    push_cast; ring, abs_div, abs_of_pos (by norm_num : (0 : Real) < 510), lt_div_iff₀ (by norm_num)]
  exact lt_of_lt_of_le (by norm_num) hodd

theorem floor_sq_div_add_half (i : Nat) : ⌊(i * i : Real) / 255 + 1 / 2⌋ = ((2 * i * i + 255) / 510 : Nat) := by
  rw [← Nat.floor_div_eq_div (K := Real), Int.natCast_floor_eq_floor (by positivity)]
  congr 1
  push_cast
  ring

/-- Settles O48. -/
theorem gammaTwoTableFollowsFromAccuracy : Obligations.GammaTwoTableFollowsFromAccuracy := by
  intro f hacc i hi
  have hvalue : value 0x4000000000000000 = 2 := by decide +kernel
  have h := toNat_gammaEntry_of_no_tie hi (by rw [hvalue]; norm_num) (by rw [hvalue]; norm_num) hacc
    (realEntry_two_no_tie i)
  rw [realEntry_two, floor_sq_div_add_half] at h
  exact Int.natCast_inj.mp h

theorem realEntry_half (i : Nat) : realEntry 0x3FE0000000000000 i = √(255 * (i : Real)) := by
  have hvalue : value 0x3FE0000000000000 = 1 / 2 := by decide +kernel
  unfold realEntry
  rw [hvalue]
  push_cast
  rw [← Real.sqrt_eq_rpow, Real.sqrt_div' _ (by norm_num), Real.sqrt_mul (by norm_num)]
  have hroot : √(255 : Real) ≠ 0 := by positivity
  rw [mul_div_assoc', div_eq_iff hroot]
  linear_combination -√(i : Real) * Real.mul_self_sqrt (by norm_num : (0 : Real) ≤ 255)

/-- 4·255·i is even where (2k + 1)² is odd, so no square root for g = 0.5 is near a tie. -/
theorem sqrt_no_tie {i : Nat} (hi : i ≤ 255) (k : Int) : 1 / 2 ^ 31 < |√(255 * (i : Real)) - (k + 1 / 2)| := by
  have hle : (i : Real) ≤ 255 := by exact_mod_cast hi
  have hroot0 := Real.sqrt_nonneg (255 * (i : Real))
  have hsq := Real.mul_self_sqrt (by positivity : (0 : Real) ≤ 255 * i)
  have hroot : √(255 * (i : Real)) ≤ 255 := Real.sqrt_le_iff.mpr ⟨by norm_num, by linarith⟩
  have hodd : (1 : Real) ≤ |((1020 * i - (2 * k + 1) * (2 * k + 1) : Int) : Real)| := by
    exact_mod_cast Int.one_le_abs (by
      intro h
      have : (2 * k + 1) * (2 * k + 1) = 2 * (2 * (k * k) + 2 * k) + 1 := by ring
      omega)
  by_contra! hnear
  have hfactor : ((1020 * i - (2 * k + 1) * (2 * k + 1) : Int) : Real)
      = 4 * ((√(255 * (i : Real)) - (k + 1 / 2)) * (√(255 * (i : Real)) + (k + 1 / 2))) := by
    push_cast
    linear_combination -4 * hsq
  obtain ⟨hlow, hhigh⟩ := abs_le.mp hnear
  have hsum : |√(255 * (i : Real)) + (k + 1 / 2)| ≤ 511 := abs_le.mpr ⟨by linarith, by linarith⟩
  rw [hfactor, abs_mul, abs_mul, abs_of_pos (by norm_num : (0 : Real) < 4)] at hodd
  have hproduct := mul_le_mul hnear hsum (abs_nonneg _) (by norm_num)
  linarith [show (1 : Real) / 2 ^ 31 * 511 < 1 / 4 by norm_num]

/-! ### The command GAMMA -/

/-- An accepted GAMMA has a legal exponent (R232). -/
theorem legalGamma_of_accepts {s : State} (h : Accepts .gamma s) : legalGamma s.gamma.double = true :=
  (legalGamma_iff _).mpr h.parameters

/-- Settles O46. -/
theorem gammaOneIsTheIdentity : Obligations.GammaOneIsTheIdentity := by
  refine ⟨fun f hid i hi => toNat_gammaEntry_one hid hi, fun s h hg => ?_⟩
  obtain ⟨t, ht, hdone⟩ := exec_completes h
  have hdouble : s.gamma.double = doubleOne := by rw [hg]; rfl
  refine ⟨t, ht, fun p hp => ?_⟩
  rw [hdone.pixel p hp]
  unfold destinationPixel
  rw [hdouble]
  exact BitVec.eq_of_toNat_eq (toNat_gammaEntry_one powId_pow (Nat.le_of_lt_succ (s.sourceByte p).isLt))

theorem gammaEntry_zero {g : Double} (hg : legalGamma g = true) : gammaEntry pow g 0 = 0 := by
  unfold gammaEntry
  rw [powOperand_zero, powZero_pow g hg]
  decide +kernel

theorem gammaEntry_255 {g : Double} (hg : legalGamma g = true) : gammaEntry pow g 255 = 255 := by
  unfold gammaEntry
  rw [powOperand_255, powOne_pow g hg]
  decide +kernel

/-- Settles O47, by POW-ZERO and POW-ONE. -/
theorem gammaKeepsBlackAndWhite : Obligations.GammaKeepsBlackAndWhite := by
  intro s h
  have hg := legalGamma_of_accepts h
  obtain ⟨t, ht, hdone⟩ := exec_completes h
  refine ⟨t, ht, fun p hp => ?_⟩
  rw [hdone.pixel p hp]
  unfold destinationPixel
  refine ⟨fun hblack => ?_, fun hwhite => ?_⟩
  · rw [show s.sourceByte p = 0 from hblack]
    exact gammaEntry_zero hg
  · rw [show s.sourceByte p = 255 from hwhite]
    exact gammaEntry_255 hg

theorem abs_255_mul_lt {x : Rat} (h0 : 0 ≤ x) (h1 : x ≤ 1) : |255 * x| < (2 : Rat) ^ (1023 : Int) := by
  rw [abs_of_nonneg (mul_nonneg (by norm_num) h0)]
  calc 255 * x < 2 ^ (8 : Int) := by norm_num; linarith
    _ ≤ 2 ^ (1023 : Int) := zpow_le_zpow_right₀ one_le_two (by norm_num)

/-- Settles O49: the scaled powers are rounded in order. -/
theorem gammaTableNeverDecreases : Obligations.GammaTableNeverDecreases := by
  intro f g hrange hmono hg i j hij hj
  obtain ⟨hfin, hx0, hx1⟩ := (inUnitInterval_iff _).mp (hrange i g (hij.trans hj) hg)
  obtain ⟨hfin', hy0, hy1⟩ := (inUnitInterval_iff _).mp (hrange j g hj hg)
  have hle : 255 * value (f (powOperand i) g) ≤ 255 * value (f (powOperand j) g) := by linarith [hmono i j g hij hj hg]
  have hi' := fmul_rounds isFinite_double255 hfin (by rw [value_double255]; exact abs_255_mul_lt hx0 hx1)
  have hj' := fmul_rounds isFinite_double255 hfin' (by rw [value_double255]; exact abs_255_mul_lt hy0 hy1)
  rw [value_double255] at hi' hj'
  refine toNat_clampRound_mono hi'.1 hj'.1 ?_
  rw [hi'.2, hj'.2]
  exact value_fl_mono (mul_nonneg (by norm_num) hx0) hle (abs_255_mul_lt hy0 hy1)

/-- Settles O53: POW-ACC of the block's power function, in the lemma on entries away from ties. -/
theorem gammaIsDeterminedAwayFromTies : Obligations.GammaIsDeterminedAwayFromTies := by
  intro s h hg
  have hlegal := legalGamma_of_accepts h
  obtain ⟨t, ht, hdone⟩ := exec_completes h
  refine ⟨t, ht, fun p hp => ?_⟩
  intro v htie
  rw [hdone.pixel p hp]
  exact toNat_gammaEntry_of_no_tie (g := s.gamma.double) (Nat.le_of_lt_succ (s.sourceByte p).isLt)
    (value_pos_of_legalGamma hlegal) hg (powAcc_pow _ hlegal) htie

/-- Settles O52. -/
theorem gammaCommandAtTwoAndAtOneHalf : Obligations.GammaCommandAtTwoAndAtOneHalf := by
  intro s h
  have hlegal := legalGamma_of_accepts h
  obtain ⟨t, ht, hdone⟩ := exec_completes h
  refine ⟨t, ht, fun p hp => ?_⟩
  intro i out
  have hi : i ≤ 255 := Nat.le_of_lt_succ (s.sourceByte p).isLt
  have hout : out = (gammaEntry pow s.gamma.double i).toNat := congrArg BitVec.toNat (hdone.pixel p hp)
  rw [hout]
  refine ⟨fun hg => ?_, fun hg => ?_⟩
  · have hdouble : s.gamma.double = 0x4000000000000000 := by rw [hg]; rfl
    rw [hdouble] at hlegal ⊢
    exact gammaTwoTableFollowsFromAccuracy pow (powAcc_pow _ hlegal) i hi
  · have hdouble : s.gamma.double = 0x3FE0000000000000 := by rw [hg]; rfl
    have hvalue : value 0x3FE0000000000000 = 1 / 2 := by decide +kernel
    rw [hdouble] at hlegal ⊢
    have htie := sqrt_no_tie hi
    have hentry := toNat_gammaEntry_of_no_tie hi (by rw [hvalue]; norm_num) (by rw [hvalue]; norm_num)
      (powAcc_pow _ hlegal) (fun k => by rw [realEntry_half]; exact htie k)
    rw [realEntry_half] at hentry
    have hcast : ((gammaEntry pow 0x3FE0000000000000 i).toNat : Real) = ⌊√(255 * (i : Real)) + 1 / 2⌋ := by
      exact_mod_cast hentry
    rw [hcast]
    have hfloor := Int.floor_le (√(255 * (i : Real)) + 1 / 2)
    have hfloor' := Int.lt_floor_add_one (√(255 * (i : Real)) + 1 / 2)
    have hlow := htie (⌊√(255 * (i : Real)) + 1 / 2⌋ - 1)
    rw [abs_of_nonneg (by push_cast; linarith)] at hlow
    push_cast at hlow
    have : (0 : Real) < 1 / 2 ^ 31 := by norm_num
    exact abs_lt.mpr ⟨by linarith, by linarith⟩

end Sys2Proof.Proofs
end

section
/-! PROOFS. The cost of a split as the spread of its two classes around their means (R195, R196). -/

namespace Sys2Proof.Proofs

open Sys2Proof.Machine

/-! ### The bins of a class (R195) -/

/-- How many samples have intensity i. -/
def occurrences (samples : List Byte) (i : Nat) : Nat := samples.countP fun b => b.toNat == i

theorem occurrences_pos_iff (samples : List Byte) (i : Nat) : 0 < occurrences samples i ↔ ∃ b ∈ samples, b.toNat = i := by
  unfold occurrences
  rw [List.countP_pos_iff]
  simp only [beq_iff_eq]

theorem zipIdx_map_range (n : Nat) (c : Nat → Nat) :
    ((List.range n).map c).zipIdx = (List.range n).map fun i => (c i, i) := by
  refine List.ext_getElem (by simp) fun i _ _ => ?_
  simp

theorem sum_map_filter (bins : Bins) (keep : Nat × Nat → Bool) (f : Nat × Nat → Nat) :
    ((bins.filter keep).map f).sum = (bins.map fun b => if keep b then f b else 0).sum := by
  simp [List.sum_map_ite]

/-- Leaving out the empty bins changes no sum to which an empty bin adds nothing. -/
theorem sum_occupiedBins (samples : List Byte) (keep : Nat → Bool) {f : Nat × Nat → Nat} (hf : ∀ i, f (0, i) = 0) :
    (((occupiedBins (histogram samples)).filter fun b => keep b.2).map f).sum
      = ∑ i ∈ Finset.range 256, if keep i then f (occurrences samples i, i) else 0 := by
  have hbins : (histogram samples).zipIdx = (List.range 256).map fun i => (occurrences samples i, i) :=
    zipIdx_map_range 256 (occurrences samples)
  unfold occupiedBins
  rw [List.filter_filter, sum_map_filter, hbins, List.map_map]
  refine congrArg List.sum (List.map_congr_left fun i _ => ?_)
  rcases Nat.eq_zero_or_pos (occurrences samples i) with hzero | hpos
  · simp [hzero, hf]
  · simp [hpos]

theorem sum_background (samples : List Byte) {t : Nat} (ht : t ≤ 254) {f : Nat × Nat → Nat} (hf : ∀ i, f (0, i) = 0) :
    ((background (histogram samples) t).map f).sum = ∑ i ∈ Finset.Icc 0 t, f (occurrences samples i, i) := by
  refine (sum_occupiedBins samples (fun i => decide (i ≤ t)) hf).trans ?_
  simp only [decide_eq_true_eq]
  rw [← Finset.sum_filter]
  refine Finset.sum_congr (Finset.ext fun i => ?_) fun _ _ => rfl
  rw [Finset.mem_filter, Finset.mem_range, Finset.mem_Icc]
  omega

theorem sum_foreground (samples : List Byte) {t : Nat} {f : Nat × Nat → Nat} (hf : ∀ i, f (0, i) = 0) :
    ((foreground (histogram samples) t).map f).sum = ∑ i ∈ Finset.Icc (t + 1) 255, f (occurrences samples i, i) := by
  refine (sum_occupiedBins samples (fun i => decide (t < i)) hf).trans ?_
  simp only [decide_eq_true_eq]
  rw [← Finset.sum_filter]
  refine Finset.sum_congr (Finset.ext fun i => ?_) fun _ _ => rfl
  rw [Finset.mem_filter, Finset.mem_range, Finset.mem_Icc]
  omega

/-! ### Mass, moments and cost of a class -/

/-- n, the pixels whose intensity lies in I (R195). -/
def mass (samples : List Byte) (I : Finset Nat) : Rat := ∑ i ∈ I, (occurrences samples i : Rat)

/-- S (R195). -/
def firstMoment (samples : List Byte) (I : Finset Nat) : Rat := ∑ i ∈ I, (i : Rat) * occurrences samples i

/-- Q (R195). -/
def secondMoment (samples : List Byte) (I : Finset Nat) : Rat := ∑ i ∈ I, (i : Rat) * i * occurrences samples i

/-- Pixel count times variance of a class, which is N times its mass·variance. -/
def spread (samples : List Byte) (I : Finset Nat) : Rat :=
  if mass samples I = 0 then 0
  else secondMoment samples I - firstMoment samples I * firstMoment samples I / mass samples I

/-- A class's cost from the sums over its intensities. -/
theorem cost_eq (samples : List Byte) (I : Finset Nat) (N : Nat) {bins : Bins}
    (hbins : ∀ f : Nat × Nat → Nat, (∀ i, f (0, i) = 0) → (bins.map f).sum = ∑ i ∈ I, f (occurrences samples i, i)) :
    bins.cost N = spread samples I / N := by
  have hcount : (bins.count : Rat) = mass samples I := by
    unfold Bins.count mass
    rw [hbins _ fun _ => rfl]
    push_cast
    rfl
  have hfirst : (bins.firstMoment : Rat) = firstMoment samples I := by
    unfold Bins.firstMoment firstMoment
    rw [hbins _ fun _ => Nat.mul_zero _]
    push_cast
    rfl
  have hsecond : (bins.secondMoment : Rat) = secondMoment samples I := by
    unfold Bins.secondMoment secondMoment
    rw [hbins _ fun _ => Nat.mul_zero _]
    push_cast
    rfl
  unfold Bins.cost spread
  rw [← hcount, ← hfirst, ← hsecond, Nat.cast_mul]
  simp only [Nat.cast_eq_zero]
  split_ifs
  · exact (zero_div _).symm
  · rfl

/-- N·cost[t], the spread of both classes. -/
def splitSpread (samples : List Byte) (t : Nat) : Rat :=
  spread samples (Finset.Icc 0 t) + spread samples (Finset.Icc (t + 1) 255)

theorem splitCost_eq (samples : List Byte) (N : Nat) {t : Nat} (ht : t ≤ 254) :
    splitCost (histogram samples) N t = splitSpread samples t / N := by
  unfold splitCost splitSpread
  rw [cost_eq samples (Finset.Icc 0 t) N fun f hf => sum_background samples ht hf,
    cost_eq samples (Finset.Icc (t + 1) 255) N fun f hf => sum_foreground samples hf, add_div]

/-! ### The cut as the first minimiser of the spread -/

section cut

variable {samples : List Byte} {N : Nat} (hN : 0 < N)
include hN

theorem splitSpread_cutValue_le {u : Nat} (hu : u ≤ 254) :
    splitSpread samples (cutValue (histogram samples) N) ≤ splitSpread samples u := by
  have h := splitCost_cutValue_le (histogram samples) N hu
  rw [splitCost_eq samples N (cutValue_le _ _), splitCost_eq samples N hu] at h
  exact (div_le_div_iff_of_pos_right (by exact_mod_cast hN)).mp h

theorem splitSpread_cutValue_lt {u : Nat} (hu : u < cutValue (histogram samples) N) :
    splitSpread samples (cutValue (histogram samples) N) < splitSpread samples u := by
  have hcut := cutValue_le (histogram samples) N
  have h := splitCost_cutValue_lt (histogram samples) N hu
  rw [splitCost_eq samples N hcut, splitCost_eq samples N (hu.le.trans hcut)] at h
  exact (div_lt_div_iff_of_pos_right (by exact_mod_cast hN)).mp h

end cut

/-! ### The spread of a class -/

section spread

variable (samples : List Byte) (I : Finset Nat)

theorem mass_eq_zero_iff : mass samples I = 0 ↔ ∀ i ∈ I, occurrences samples i = 0 := by
  unfold mass
  rw [Finset.sum_eq_zero_iff_of_nonneg fun _ _ => Nat.cast_nonneg _]
  simp only [Nat.cast_eq_zero]

/-- The spread is the sum of the squared distances from the mean. -/
theorem spread_eq_sum (h : mass samples I ≠ 0) :
    spread samples I = ∑ i ∈ I, occurrences samples i * ((i : Rat) - firstMoment samples I / mass samples I) ^ 2 := by
  have hexpand (m : Rat) : ∑ i ∈ I, occurrences samples i * ((i : Rat) - m) ^ 2
      = secondMoment samples I - 2 * m * firstMoment samples I + m * m * mass samples I := by
    unfold secondMoment firstMoment mass
    rw [Finset.mul_sum, Finset.mul_sum, ← Finset.sum_sub_distrib, ← Finset.sum_add_distrib]
    exact Finset.sum_congr rfl fun i _ => by ring
  unfold spread
  rw [if_neg h, hexpand]
  field_simp
  ring

theorem spread_nonneg : 0 ≤ spread samples I := by
  by_cases h : mass samples I = 0
  · exact (if_pos h).ge
  · rw [spread_eq_sum samples I h]
    exact Finset.sum_nonneg fun i _ => by positivity

variable {samples I}

/-- Two intensities in a class cannot both be its mean. -/
theorem spread_pos {i j : Nat} (hi : i ∈ I) (hj : j ∈ I) (hne : i ≠ j) (hi0 : 0 < occurrences samples i)
    (hj0 : 0 < occurrences samples j) : 0 < spread samples I := by
  have h : mass samples I ≠ 0 := fun h => hi0.ne' ((mass_eq_zero_iff samples I).mp h i hi)
  rw [spread_eq_sum samples I h]
  generalize firstMoment samples I / mass samples I = m
  have hdistance {k : Nat} (hk0 : 0 < occurrences samples k) (hk : (k : Rat) ≠ m) :
      0 < occurrences samples k * ((k : Rat) - m) ^ 2 := by
    have := sub_ne_zero.mpr hk
    positivity
  refine Finset.sum_pos' (fun _ _ => by positivity) ?_
  by_cases him : (i : Rat) = m
  · exact ⟨j, hj, hdistance hj0 fun hjm => hne (by exact_mod_cast him.trans hjm.symm)⟩
  · exact ⟨i, hi, hdistance hi0 him⟩

/-- A class of one intensity has no spread. -/
theorem spread_of_single {v : Nat} (h : ∀ i ∈ I, 0 < occurrences samples i → i = v) : spread samples I = 0 := by
  have hsingle {i : Nat} (hi : i ∈ I) : (i : Rat) * occurrences samples i = v * occurrences samples i := by
    rcases Nat.eq_zero_or_pos (occurrences samples i) with hzero | hpos
    · rw [hzero, Nat.cast_zero, mul_zero, mul_zero]
    · rw [h i hi hpos]
  have hfirst : firstMoment samples I = v * mass samples I := by
    unfold firstMoment mass
    rw [Finset.mul_sum]
    exact Finset.sum_congr rfl fun i hi => hsingle hi
  have hsecond : secondMoment samples I = v * v * mass samples I := by
    unfold secondMoment mass
    rw [Finset.mul_sum]
    exact Finset.sum_congr rfl fun i hi => by rw [mul_assoc, hsingle hi, mul_left_comm, hsingle hi, ← mul_assoc]
  unfold spread
  split_ifs with hmass
  · rfl
  · rw [hfirst, hsecond]
    field_simp
    ring

end spread

/-- A class's sums see only the intensities that occur. -/
theorem spread_congr {samples : List Byte} {I J : Finset Nat}
    (h : ∀ i, occurrences samples i ≠ 0 → (i ∈ I ↔ i ∈ J)) : spread samples I = spread samples J := by
  have hsum (f : Nat → Rat) (hf : ∀ i, occurrences samples i = 0 → f i = 0) : ∑ i ∈ I, f i = ∑ i ∈ J, f i :=
    Finset.sum_congr_of_eq_on_inter (fun i hi hj => hf i <| not_not.mp fun h0 => hj ((h i h0).mp hi))
      (fun i hj hi => hf i <| not_not.mp fun h0 => hi ((h i h0).mpr hj)) fun _ _ _ => rfl
  have hmass : mass samples I = mass samples J := hsum _ fun i hi => by rw [hi, Nat.cast_zero]
  have hfirst : firstMoment samples I = firstMoment samples J := hsum _ fun i hi => by rw [hi, Nat.cast_zero, mul_zero]
  have hsecond : secondMoment samples I = secondMoment samples J :=
    hsum _ fun i hi => by rw [hi, Nat.cast_zero, mul_zero]
  unfold spread
  rw [hmass, hfirst, hsecond]

/-- A cut at an intensity that does not occur splits the image as the cut below it does. -/
theorem splitSpread_succ_of_absent {samples : List Byte} {t : Nat} (h : occurrences samples (t + 1) = 0) :
    splitSpread samples (t + 1) = splitSpread samples t := by
  have hne {i : Nat} (hi : occurrences samples i ≠ 0) : i ≠ t + 1 := fun heq => hi (heq ▸ h)
  refine congrArg₂ (· + ·) (spread_congr fun i hi => ?_) (spread_congr fun i hi => ?_)
  · have := hne hi
    rw [Finset.mem_Icc, Finset.mem_Icc]
    omega
  · have := hne hi
    rw [Finset.mem_Icc, Finset.mem_Icc]
    omega

/-- Both classes together are the whole image. -/
theorem sum_classes (f : Nat → Rat) {t : Nat} (ht : t ≤ 254) :
    ∑ i ∈ Finset.Icc 0 t, f i + ∑ i ∈ Finset.Icc (t + 1) 255, f i = ∑ i ∈ Finset.range 256, f i := by
  rw [← Finset.sum_union]
  · refine Finset.sum_congr (Finset.ext fun i => ?_) fun _ _ => rfl
    rw [Finset.mem_union, Finset.mem_Icc, Finset.mem_Icc, Finset.mem_range]
    omega
  · refine Finset.disjoint_left.mpr fun i hi hi' => ?_
    rw [Finset.mem_Icc] at hi hi'
    omega

theorem mass_add_mass (samples : List Byte) {t : Nat} (ht : t ≤ 254) :
    mass samples (Finset.Icc 0 t) + mass samples (Finset.Icc (t + 1) 255) = samples.length := by
  have hall : ∑ i ∈ Finset.range 256, occurrences samples i = samples.length :=
    (sum_countP_range samples 256).trans (List.countP_eq_length.mpr fun b _ => decide_eq_true b.isLt)
  unfold mass
  rw [sum_classes _ ht]
  exact_mod_cast hall

end Sys2Proof.Proofs
end

section
/-! PROOFS. The command OTSU (R195 to R197). -/

namespace Sys2Proof.Proofs

open Sys2Proof.Machine

/-! ### The between-class sum (R196) -/

/-- What a class adds to B (R196). -/
def betweenSum (samples : List Byte) (I : Finset Nat) : Rat :=
  if mass samples I = 0 then 0 else firstMoment samples I * firstMoment samples I / mass samples I

theorem spread_eq_sub (samples : List Byte) (I : Finset Nat) :
    spread samples I = secondMoment samples I - betweenSum samples I := by
  unfold spread betweenSum
  split_ifs with h
  · have hzero : secondMoment samples I = 0 := Finset.sum_eq_zero fun i hi => by
      rw [(mass_eq_zero_iff samples I).mp h i hi, Nat.cast_zero, mul_zero]
    rw [hzero, sub_zero]
  · rfl

/-- N·cost[t] = Q − B(t) (R196). -/
theorem splitSpread_eq_sub (samples : List Byte) {t : Nat} (ht : t ≤ 254) :
    splitSpread samples t = secondMoment samples (Finset.range 256)
      - (betweenSum samples (Finset.Icc 0 t) + betweenSum samples (Finset.Icc (t + 1) 255)) := by
  have hsplit : secondMoment samples (Finset.Icc 0 t) + secondMoment samples (Finset.Icc (t + 1) 255)
      = secondMoment samples (Finset.range 256) := sum_classes _ ht
  unfold splitSpread
  rw [spread_eq_sub, spread_eq_sub, ← hsplit]
  ring

/-- Settles O59: Q does not depend on the cut, so the least spread is the greatest B. -/
theorem otsuCutMaximisesBetweenClassSum : Obligations.OtsuCutMaximisesBetweenClassSum := by
  intro samples hne N h Q B cut
  have hN : 0 < N := List.length_pos_iff.mpr hne
  have hN' : (N : Rat) ≠ 0 := by exact_mod_cast hN.ne'
  have hcut : cut ≤ 254 := cutValue_le _ _
  have hspread (t : Nat) (ht : t ≤ 254) : splitSpread samples t = Q - B t := splitSpread_eq_sub samples ht
  refine ⟨fun t ht => ?_, hcut, fun u hu => ?_, fun u hu => ?_⟩
  · rw [splitCost_eq samples N ht, mul_div_cancel₀ _ hN', hspread t ht]
  · have hle := splitSpread_cutValue_le (samples := samples) hN hu
    rw [hspread _ hcut, hspread u hu] at hle
    linarith
  · have hlt := splitSpread_cutValue_lt (samples := samples) hN hu
    rw [hspread _ hcut, hspread u (hu.le.trans hcut)] at hlt
    linarith

/-! ### The command -/

theorem occurrences_sourceSamples (s : State) (i : Nat) : occurrences s.sourceSamples i = sampleCount s i :=
  countP_sourceSamples s i

theorem occurrences_sourceSamples_pos_iff (s : State) (i : Nat) :
    0 < occurrences s.sourceSamples i ↔ ∃ p, p < s.pixelCount ∧ (s.sourceByte p).toNat = i := by
  rw [occurrences_pos_iff]
  constructor
  · rintro ⟨b, hb, rfl⟩
    obtain ⟨p, hp, rfl⟩ := exists_sourceByte_of_mem hb
    exact ⟨p, hp, rfl⟩
  · rintro ⟨p, hp, rfl⟩
    exact ⟨_, sourceByte_mem hp, rfl⟩

/-- The result of OTSU: the cut in THRESH, and every sample binarized at it. -/
theorem exec_otsu_result {s : State} (hs : Accepts .otsu s) :
    ∃ t, exec .otsu s = .next t ∧ t.thresh.toNat = sourceCut s ∧ t = { s with thresh := t.thresh, tv := true, mem := t.mem }
      ∧ keptOutsideDestination s t
      ∧ ∀ p, p < s.pixelCount → t.readByte (s.dst.toNat + p)
        = if (s.readByte (s.src.toNat + p)).toNat ≤ sourceCut s then 0 else 255 := by
  obtain ⟨t, ht, hdone⟩ := exec_completes hs
  refine ⟨t, ht, ?_, ?_, hdone.outside, hdone.pixel⟩
  · rw [hdone.thresh]
    exact toNat_ofNat_cutValue _ _
  · rw [hdone.thresh]
    exact hdone.cut rfl

/-- A class's cost as R195 writes it. -/
theorem spread_div (samples : List Byte) (I : Finset Nat) (N : Rat) :
    spread samples I / N = if mass samples I = 0 then 0
      else (secondMoment samples I - firstMoment samples I * firstMoment samples I / mass samples I) / N := by
  unfold spread
  split_ifs
  · exact zero_div N
  · rfl

/-- Settles O12: the cost of R195 over all bins is the model's, whose scan keeps the first minimiser. -/
theorem otsuCutsAtTheFirstLeastCost : Obligations.OtsuCutsAtTheFirstLeastCost := by
  intro s hs N h cost
  have hcost (t : Nat) (ht : t ≤ 254) : cost t = splitCost (histogram s.sourceSamples) s.pixelCount t := by
    have hmass := mass_add_mass s.sourceSamples ht
    rw [length_sourceSamples, ← eq_sub_iff_add_eq'] at hmass
    rw [splitCost_eq _ _ ht, splitSpread, add_div, spread_div, spread_div, hmass]
    unfold mass firstMoment secondMoment
    simp only [occurrences_sourceSamples]
    rfl
  obtain ⟨t, ht, hthresh, hframe, houtside, hpixel⟩ := exec_otsu_result hs
  have hcut : sourceCut s ≤ 254 := cutValue_le _ _
  refine ⟨t, sourceCut s, ht, hcut, fun u hu => ?_, fun u hu => ?_, hthresh, hframe, houtside, hpixel⟩
  · rw [hcost _ hcut, hcost u hu]
    exact splitCost_cutValue_le _ _ hu
  · rw [hcost _ hcut, hcost u (hu.le.trans hcut)]
    exact splitCost_cutValue_lt _ _ hu

/-! ### Images of one and of two intensities (R197) -/

/-- An image of one intensity has no spread at any cut, so the cut is the first. -/
theorem sourceCut_of_constant {s : State} (hcount : 0 < s.pixelCount) {v : Byte}
    (h : ∀ p, p < s.pixelCount → s.sourceByte p = v) : sourceCut s = 0 := by
  have hsingle (I : Finset Nat) : spread s.sourceSamples I = 0 := spread_of_single (v := v.toNat) fun i _ hi => by
    obtain ⟨p, hp, rfl⟩ := (occurrences_sourceSamples_pos_iff s i).mp hi
    rw [h p hp]
  have hzero (t : Nat) : splitSpread s.sourceSamples t = 0 := by rw [splitSpread, hsingle, hsingle, add_zero]
  by_contra hne
  have hlt := splitSpread_cutValue_lt (samples := s.sourceSamples) hcount (Nat.pos_of_ne_zero hne)
  rw [hzero, hzero] at hlt
  exact lt_irrefl 0 hlt

/-- Settles O56. -/
theorem otsuOnAConstantImage : Obligations.OtsuOnAConstantImage := by
  intro s v hs h
  obtain ⟨t, ht, hthresh, -, -, hpixel⟩ := exec_otsu_result hs
  rw [sourceCut_of_constant (pixelCount_pos hs) h] at hthresh hpixel
  have hv : v.toNat ≤ 0 ↔ v = 0 := Nat.le_zero.trans (BitVec.toNat_inj (y := (0 : Byte)))
  refine ⟨t, ht, BitVec.eq_of_toNat_eq hthresh, fun p hp => ?_⟩
  rw [hpixel p hp, h p hp]
  simp only [hv]

/-- On two intensities the cut at the lower one has no spread, and every smaller cut has. -/
theorem sourceCut_of_two {s : State} (hcount : 0 < s.pixelCount) {a b : Byte} (hab : a.toNat < b.toNat)
    (h : ∀ p, p < s.pixelCount → s.sourceByte p = a ∨ s.sourceByte p = b)
    (ha : ∃ p, p < s.pixelCount ∧ s.sourceByte p = a) (hb : ∃ p, p < s.pixelCount ∧ s.sourceByte p = b) :
    sourceCut s = a.toNat := by
  have hb255 := b.isLt
  have honly (i : Nat) (hi : 0 < occurrences s.sourceSamples i) : i = a.toNat ∨ i = b.toNat := by
    obtain ⟨p, hp, rfl⟩ := (occurrences_sourceSamples_pos_iff s i).mp hi
    exact (h p hp).imp (congrArg _) (congrArg _)
  have ha0 : 0 < occurrences s.sourceSamples a.toNat :=
    (occurrences_sourceSamples_pos_iff s _).mpr (ha.imp fun _ => And.imp_right (congrArg _))
  have hb0 : 0 < occurrences s.sourceSamples b.toNat :=
    (occurrences_sourceSamples_pos_iff s _).mpr (hb.imp fun _ => And.imp_right (congrArg _))
  have hlower : spread s.sourceSamples (Finset.Icc 0 a.toNat) = 0 := spread_of_single (v := a.toNat) fun i hi hi0 => by
    have := honly i hi0
    rw [Finset.mem_Icc] at hi
    omega
  have hupper : spread s.sourceSamples (Finset.Icc (a.toNat + 1) 255) = 0 :=
    spread_of_single (v := b.toNat) fun i hi hi0 => by
      have := honly i hi0
      rw [Finset.mem_Icc] at hi
      omega
  have hzero : splitSpread s.sourceSamples a.toNat = 0 := by rw [splitSpread, hlower, hupper, add_zero]
  have hle := splitSpread_cutValue_le (samples := s.sourceSamples) hcount (u := a.toNat) (by omega)
  rw [hzero] at hle
  rcases Nat.lt_trichotomy (sourceCut s) a.toNat with hlt | heq | hgt
  · have hpos := spread_pos (I := Finset.Icc (sourceCut s + 1) 255) (Finset.mem_Icc.mpr (by omega))
      (Finset.mem_Icc.mpr (by omega)) hab.ne ha0 hb0
    have hnonneg := spread_nonneg s.sourceSamples (Finset.Icc 0 (sourceCut s))
    exact absurd hle (not_le.mpr (add_pos_of_nonneg_of_pos hnonneg hpos))
  · exact heq
  · have hlt := splitSpread_cutValue_lt (samples := s.sourceSamples) hcount hgt
    rw [hzero] at hlt
    exact absurd hlt (not_lt.mpr (add_nonneg (spread_nonneg _ _) (spread_nonneg _ _)))

/-- Settles O57. -/
theorem otsuOnTwoIntensities : Obligations.OtsuOnTwoIntensities := by
  intro s a b hs hab h ha hb
  obtain ⟨t, ht, hthresh, -, -, hpixel⟩ := exec_otsu_result hs
  rw [sourceCut_of_two (pixelCount_pos hs) hab h ha hb] at hthresh hpixel
  refine ⟨t, ht, BitVec.eq_of_toNat_eq hthresh, fun p hp => ?_⟩
  rw [hpixel p hp]
  rcases h p hp with hp' | hp'
  · rw [hp', if_pos le_rfl, if_pos rfl]
  · rw [hp', if_neg (by omega), if_neg (by rintro rfl; omega)]

/-- Settles O58: a cut above 0 that does not occur would have the spread of the cut below it. -/
theorem otsuCutIsZeroOrOccurs : Obligations.OtsuCutIsZeroOrOccurs := by
  intro s hs
  obtain ⟨t, ht, hthresh, -, -, -⟩ := exec_otsu_result hs
  refine ⟨t, ht, ?_⟩
  have hcut : sourceCut s ≤ 254 := cutValue_le _ _
  rcases Nat.eq_zero_or_pos (occurrences s.sourceSamples (sourceCut s)) with habsent | hpresent
  · left
    refine BitVec.eq_of_toNat_eq (hthresh.trans ?_)
    by_contra hne
    obtain ⟨u, hu⟩ := Nat.exists_eq_succ_of_ne_zero hne
    have hlt := splitSpread_cutValue_lt (samples := s.sourceSamples) (pixelCount_pos hs)
      (show u < sourceCut s by omega)
    rw [show cutValue (histogram s.sourceSamples) s.pixelCount = u + 1 from hu] at hlt
    rw [hu] at habsent
    rw [splitSpread_succ_of_absent habsent] at hlt
    exact lt_irrefl _ hlt
  · right
    obtain ⟨p, hp, hpt⟩ := (occurrences_sourceSamples_pos_iff s _).mp hpresent
    exact ⟨p, hp, BitVec.eq_of_toNat_eq (hpt.trans hthresh.symm)⟩

end Sys2Proof.Proofs
end
